-- ==== Sys2Proof/Word.lean ====
section
/-! DEFINITION. The word types of the chip8_emu CORE and the two narrowings of R9. -/

namespace Sys2Proof

/-- An 8-bit value: a register, a timer, a memory byte (R6 V_WIDTH, TIMER_WIDTH; R30). -/
abbrev Byte := BitVec 8

/-- A 16-bit value: pc, I, a stack entry, an instruction word (R6 PC_WIDTH, I_WIDTH, INSN_WIDTH). -/
abbrev Word := BitVec 16

/-- A register index, the 4-bit field X or Y (R71); every value names a register (R20). -/
abbrev Reg := BitVec 4

/-- The 4-bit count N (R71). -/
abbrev Nibble := BitVec 4

/-- The 12-bit address field NNN (R71). -/
abbrev Addr12 := BitVec 12

/-- `wrap8(v) = v mod 256` (R9). -/
abbrev wrap8 (n : Nat) : Byte := BitVec.ofNat 8 n

/-- `wrap16(v) = v mod 65536` (R9). -/
abbrev wrap16 (n : Nat) : Word := BitVec.ofNat 16 n

end Sys2Proof
end

