-- ==== Sys2Proof/Config.lean ====
section
/-! DEFINITION. The fixed parameters of R6, the FONT parameter of R7 and R37, and the free random bytes of R13. -/

namespace Sys2Proof.Config

/-- MEM_SIZE (R6, R50). -/
abbrev memSize : Nat := 4096

/-- PROG_BASE, the load offset and the reset pc (R6, R35). -/
abbrev progBase : Nat := 0x200

/-- LOAD_MAX = MEM_SIZE - PROG_BASE = 3584 (R6, R233). -/
abbrev loadMax : Nat := 3584

/-- The size of the glyph area, 16 glyphs of 5 bytes (R6, R36). -/
abbrev fontSize : Nat := 80

/-- FONT, the 80 glyph bytes: a parameter of the block (R7, R37). -/
abbrev Font := Vector Byte fontSize

/-- Glyphs 0 to 7 of the default FONT (R37). -/
def fontLow : Vector Byte 40 := #v[
  0xF0, 0x90, 0x90, 0x90, 0xF0,
  0x20, 0x60, 0x20, 0x20, 0x70,
  0xF0, 0x10, 0xF0, 0x80, 0xF0,
  0xF0, 0x10, 0xF0, 0x10, 0xF0,
  0x90, 0x90, 0xF0, 0x10, 0x10,
  0xF0, 0x80, 0xF0, 0x10, 0xF0,
  0xF0, 0x80, 0xF0, 0x90, 0xF0,
  0xF0, 0x10, 0x20, 0x40, 0x40]

/-- Glyphs 8 to F of the default FONT (R37). -/
def fontHigh : Vector Byte 40 := #v[
  0xF0, 0x90, 0xF0, 0x90, 0xF0,
  0xF0, 0x90, 0xF0, 0x10, 0xF0,
  0xF0, 0x90, 0xF0, 0x90, 0x90,
  0xE0, 0x90, 0xE0, 0x90, 0xE0,
  0xF0, 0x80, 0x80, 0x80, 0xF0,
  0xE0, 0x90, 0x90, 0x90, 0xE0,
  0xF0, 0x80, 0xF0, 0x80, 0xF0,
  0xF0, 0x80, 0xF0, 0x80, 0x80]

/-- The default FONT of R37. PRESUMED (the spec takes the bytes from general knowledge), unsafe: log 2.
No statement of the model rests on its bytes. -/
def font : Font := fontLow ++ fontHigh

/-- The random byte source: the value `rand8` of the n-th draw, under no law (R7, R13, R154). A FREE VALUE: it has no
body, so nothing can be proved of it, and what is proved holds whatever it is (log 1). -/
opaque rand8 : Nat → Byte

end Sys2Proof.Config
end

