-- ==== Sys2Proof/Syntax.lean ====
section
/-! DEFINITION. The 35 instructions: one constructor for each row of R75 and of spec/opcode_table.json. -/

namespace Sys2Proof

/-- An instruction with its operand fields (R71, R72). Every field has exactly the width the encoding gives it, so a
field out of range cannot be written. -/
inductive Instr where
  /-- 0000, no-op (R120) -/
  | nop
  /-- 00E0, clear screen (R191) -/
  | cls
  /-- 00EE, return (R121) -/
  | ret
  /-- 1NNN, jump (R122) -/
  | jp (nnn : Addr12)
  /-- 2NNN, call (R123) -/
  | call (nnn : Addr12)
  /-- 3XNN, skip if equal to immediate (R125) -/
  | seImm (x : Reg) (nn : Byte)
  /-- 4XNN, skip if not equal to immediate (R126) -/
  | sneImm (x : Reg) (nn : Byte)
  /-- 5XY0, skip if registers equal (R127) -/
  | seReg (x y : Reg)
  /-- 6XNN, load immediate (R143) -/
  | ldImm (x : Reg) (nn : Byte)
  /-- 7XNN, add immediate (R144) -/
  | addImm (x : Reg) (nn : Byte)
  /-- 8XY0, register copy (R145) -/
  | ldReg (x y : Reg)
  /-- 8XY1 (R146) -/
  | orReg (x y : Reg)
  /-- 8XY2 (R147) -/
  | andReg (x y : Reg)
  /-- 8XY3 (R148) -/
  | xorReg (x y : Reg)
  /-- 8XY4, add with carry-out (R149) -/
  | addReg (x y : Reg)
  /-- 8XY5, subtract (R150) -/
  | subReg (x y : Reg)
  /-- 8XY6, shift right; the field y is decoded and its register is not read (R151) -/
  | shr (x y : Reg)
  /-- 8XY7, reverse subtract (R152) -/
  | subnReg (x y : Reg)
  /-- 8XYE, shift left; the field y is decoded and its register is not read (R153) -/
  | shl (x y : Reg)
  /-- 9XY0, skip if registers not equal (R128) -/
  | sneReg (x y : Reg)
  /-- ANNN, load address register (R170) -/
  | ldI (nnn : Addr12)
  /-- BNNN, jump with offset V0 (R124) -/
  | jpV0 (nnn : Addr12)
  /-- CXNN, random (R154) -/
  | rnd (x : Reg) (nn : Byte)
  /-- DXYN, draw sprite (R192) -/
  | drw (x y : Reg) (n : Nibble)
  /-- EX9E, skip if key pressed (R212) -/
  | skp (x : Reg)
  /-- EXA1, skip if key not pressed (R213) -/
  | sknp (x : Reg)
  /-- FX07, read delay timer (R214) -/
  | ldFromDT (x : Reg)
  /-- FX0A, wait for key (R215) -/
  | ldKey (x : Reg)
  /-- FX15, set delay timer (R216) -/
  | ldDT (x : Reg)
  /-- FX18, set sound timer (R217) -/
  | ldST (x : Reg)
  /-- FX1E, add to address register (R171) -/
  | addI (x : Reg)
  /-- FX29, glyph address (R172) -/
  | ldF (x : Reg)
  /-- FX33, binary-coded decimal store (R173) -/
  | ldB (x : Reg)
  /-- FX55, store registers 0 to X (R174) -/
  | storeRegs (x : Reg)
  /-- FX65, load registers 0 to X (R175) -/
  | loadRegs (x : Reg)
  deriving DecidableEq, Repr

end Sys2Proof
end

