-- ==== Sys2Proof/WellFormed.lean ====
section
/-! DEFINITION. The checks on what reaches the block from outside: an instruction word against the table of R75, a program
payload against R233, a key index against R211. An `Instr` itself needs none: each of its fields has exactly the width
of R71, so every `Instr` is well-formed. -/

namespace Sys2Proof

/-- One row of the table of R75: a word w is the instruction when `(w & mask) = pattern`. -/
structure OpcodeRow where
  mnemonic : String
  pattern : Word
  mask : Word
  deriving DecidableEq, Repr

/-- `(w & mask) == match` (R75). -/
def OpcodeRow.accepts (r : OpcodeRow) (w : Word) : Bool := w &&& r.mask == r.pattern

/-- The rows of R75 with op 0 to 7. -/
def opcodeRowsLow : List OpcodeRow :=
  [ ⟨"0000", 0x0000, 0xFFFF⟩, ⟨"00E0", 0x00E0, 0xFFFF⟩, ⟨"00EE", 0x00EE, 0xFFFF⟩,
    ⟨"1NNN", 0x1000, 0xF000⟩, ⟨"2NNN", 0x2000, 0xF000⟩, ⟨"3XNN", 0x3000, 0xF000⟩,
    ⟨"4XNN", 0x4000, 0xF000⟩, ⟨"5XY0", 0x5000, 0xF00F⟩, ⟨"6XNN", 0x6000, 0xF000⟩,
    ⟨"7XNN", 0x7000, 0xF000⟩ ]

/-- The rows of R75 with op 8. -/
def opcodeRowsAlu : List OpcodeRow :=
  [ ⟨"8XY0", 0x8000, 0xF00F⟩, ⟨"8XY1", 0x8001, 0xF00F⟩, ⟨"8XY2", 0x8002, 0xF00F⟩,
    ⟨"8XY3", 0x8003, 0xF00F⟩, ⟨"8XY4", 0x8004, 0xF00F⟩, ⟨"8XY5", 0x8005, 0xF00F⟩,
    ⟨"8XY6", 0x8006, 0xF00F⟩, ⟨"8XY7", 0x8007, 0xF00F⟩, ⟨"8XYE", 0x800E, 0xF00F⟩ ]

/-- The rows of R75 with op 9 to E. -/
def opcodeRowsHigh : List OpcodeRow :=
  [ ⟨"9XY0", 0x9000, 0xF00F⟩, ⟨"ANNN", 0xA000, 0xF000⟩, ⟨"BNNN", 0xB000, 0xF000⟩,
    ⟨"CXNN", 0xC000, 0xF000⟩, ⟨"DXYN", 0xD000, 0xF000⟩, ⟨"EX9E", 0xE09E, 0xF0FF⟩,
    ⟨"EXA1", 0xE0A1, 0xF0FF⟩ ]

/-- The rows of R75 with op F. -/
def opcodeRowsF : List OpcodeRow :=
  [ ⟨"FX07", 0xF007, 0xF0FF⟩, ⟨"FX0A", 0xF00A, 0xF0FF⟩, ⟨"FX15", 0xF015, 0xF0FF⟩,
    ⟨"FX18", 0xF018, 0xF0FF⟩, ⟨"FX1E", 0xF01E, 0xF0FF⟩, ⟨"FX29", 0xF029, 0xF0FF⟩,
    ⟨"FX33", 0xF033, 0xF0FF⟩, ⟨"FX55", 0xF055, 0xF0FF⟩, ⟨"FX65", 0xF065, 0xF0FF⟩ ]

/-- The 35 rows of R75, written out apart from the decoder so that the two can be held against each other. -/
def opcodeRows : List OpcodeRow := opcodeRowsLow ++ opcodeRowsAlu ++ opcodeRowsHigh ++ opcodeRowsF

/-- The word matches a row of R75 (R76); every other word is illegal (R77). -/
def legalWord (w : Word) : Bool := opcodeRows.any fun r => r.accepts w

/-- The row of R75 an instruction belongs to, by the pattern R75 and spec/opcode_table.json name it with. -/
def Instr.mnemonic : Instr → String
  | .nop => "0000"
  | .cls => "00E0"
  | .ret => "00EE"
  | .jp _ => "1NNN"
  | .call _ => "2NNN"
  | .seImm _ _ => "3XNN"
  | .sneImm _ _ => "4XNN"
  | .seReg _ _ => "5XY0"
  | .ldImm _ _ => "6XNN"
  | .addImm _ _ => "7XNN"
  | .ldReg _ _ => "8XY0"
  | .orReg _ _ => "8XY1"
  | .andReg _ _ => "8XY2"
  | .xorReg _ _ => "8XY3"
  | .addReg _ _ => "8XY4"
  | .subReg _ _ => "8XY5"
  | .shr _ _ => "8XY6"
  | .subnReg _ _ => "8XY7"
  | .shl _ _ => "8XYE"
  | .sneReg _ _ => "9XY0"
  | .ldI _ => "ANNN"
  | .jpV0 _ => "BNNN"
  | .rnd _ _ => "CXNN"
  | .drw _ _ _ => "DXYN"
  | .skp _ => "EX9E"
  | .sknp _ => "EXA1"
  | .ldFromDT _ => "FX07"
  | .ldKey _ => "FX0A"
  | .ldDT _ => "FX15"
  | .ldST _ => "FX18"
  | .addI _ => "FX1E"
  | .ldF _ => "FX29"
  | .ldB _ => "FX33"
  | .storeRegs _ => "FX55"
  | .loadRegs _ => "FX65"

/-- A program payload that fits from 0x200 up: at most 3584 bytes (R233, R283). -/
def programFits (bytes : List Byte) : Bool := decide (bytes.length ≤ Config.loadMax)

/-- A key index the host may use: "index must be 0–15" (R211, R236). -/
def keyIndexFits (index : Int) : Bool := decide (0 ≤ index ∧ index ≤ 15)

end Sys2Proof
end

