-- ==== Sys2Proof/Decode.lean ====
section
/-! DEFINITION. The instruction decoder of R104 (fields by R71, dispatch by R74), total on any bytes and rejecting by name,
and after it the encoder, written from the formats of R72 and the table of R75. -/

namespace Sys2Proof

/-- Why bytes are no instruction. -/
inductive DecodeError where
  /-- fewer than the two bytes of an instruction word (R70) -/
  | truncated
  /-- a word that matches no row of R75: illegal (R77) -/
  | illegalWord (w : Word)
  deriving DecidableEq, Repr

/-- Nibble 1, the primary opcode, w[15:12] (R71). -/
def fieldOp (w : Word) : Nibble := w.extractLsb' 12 4

/-- X, nibble 2, w[11:8] (R71). -/
def fieldX (w : Word) : Reg := w.extractLsb' 8 4

/-- Y, nibble 3, w[7:4] (R71). -/
def fieldY (w : Word) : Reg := w.extractLsb' 4 4

/-- N, nibble 4, w[3:0] (R71). -/
def fieldN (w : Word) : Nibble := w.extractLsb' 0 4

/-- NN, w[7:0] (R71). -/
def fieldNN (w : Word) : Byte := w.extractLsb' 0 8

/-- NNN, w[11:0] (R71). -/
def fieldNNN (w : Word) : Addr12 := w.extractLsb' 0 12

/-- Family 0: the whole word selects (R74). -/
def decodeFamily0 (w : Word) : Except DecodeError Instr :=
  match w.toNat with
  | 0x0000 => .ok .nop
  | 0x00E0 => .ok .cls
  | 0x00EE => .ok .ret
  | _ => .error (.illegalWord w)

/-- Family 5: N = 0 (R74). -/
def decodeFamily5 (w : Word) : Except DecodeError Instr :=
  match (fieldN w).toNat with
  | 0x0 => .ok (.seReg (fieldX w) (fieldY w))
  | _ => .error (.illegalWord w)

/-- Family 8: N = 0 to 7 and E (R74). -/
def decodeFamily8 (w : Word) : Except DecodeError Instr :=
  match (fieldN w).toNat with
  | 0x0 => .ok (.ldReg (fieldX w) (fieldY w))
  | 0x1 => .ok (.orReg (fieldX w) (fieldY w))
  | 0x2 => .ok (.andReg (fieldX w) (fieldY w))
  | 0x3 => .ok (.xorReg (fieldX w) (fieldY w))
  | 0x4 => .ok (.addReg (fieldX w) (fieldY w))
  | 0x5 => .ok (.subReg (fieldX w) (fieldY w))
  | 0x6 => .ok (.shr (fieldX w) (fieldY w))
  | 0x7 => .ok (.subnReg (fieldX w) (fieldY w))
  | 0xE => .ok (.shl (fieldX w) (fieldY w))
  | _ => .error (.illegalWord w)

/-- Family 9: N = 0 (R74). -/
def decodeFamily9 (w : Word) : Except DecodeError Instr :=
  match (fieldN w).toNat with
  | 0x0 => .ok (.sneReg (fieldX w) (fieldY w))
  | _ => .error (.illegalWord w)

/-- Family E: NN selects (R74). -/
def decodeFamilyE (w : Word) : Except DecodeError Instr :=
  match (fieldNN w).toNat with
  | 0x9E => .ok (.skp (fieldX w))
  | 0xA1 => .ok (.sknp (fieldX w))
  | _ => .error (.illegalWord w)

/-- Family F: NN selects (R74). -/
def decodeFamilyF (w : Word) : Except DecodeError Instr :=
  match (fieldNN w).toNat with
  | 0x07 => .ok (.ldFromDT (fieldX w))
  | 0x0A => .ok (.ldKey (fieldX w))
  | 0x15 => .ok (.ldDT (fieldX w))
  | 0x18 => .ok (.ldST (fieldX w))
  | 0x1E => .ok (.addI (fieldX w))
  | 0x29 => .ok (.ldF (fieldX w))
  | 0x33 => .ok (.ldB (fieldX w))
  | 0x55 => .ok (.storeRegs (fieldX w))
  | 0x65 => .ok (.loadRegs (fieldX w))
  | _ => .error (.illegalWord w)

/-- The decoder: "one of 35 instructions, with its fields" or a rejection (R76, R104), dispatched on nibble 1 (R74). -/
def decode (w : Word) : Except DecodeError Instr :=
  match (fieldOp w).toNat with
  | 0x0 => decodeFamily0 w
  | 0x1 => .ok (.jp (fieldNNN w))
  | 0x2 => .ok (.call (fieldNNN w))
  | 0x3 => .ok (.seImm (fieldX w) (fieldNN w))
  | 0x4 => .ok (.sneImm (fieldX w) (fieldNN w))
  | 0x5 => decodeFamily5 w
  | 0x6 => .ok (.ldImm (fieldX w) (fieldNN w))
  | 0x7 => .ok (.addImm (fieldX w) (fieldNN w))
  | 0x8 => decodeFamily8 w
  | 0x9 => decodeFamily9 w
  | 0xA => .ok (.ldI (fieldNNN w))
  | 0xB => .ok (.jpV0 (fieldNNN w))
  | 0xC => .ok (.rnd (fieldX w) (fieldNN w))
  | 0xD => .ok (.drw (fieldX w) (fieldY w) (fieldN w))
  | 0xE => decodeFamilyE w
  | _ => decodeFamilyF w

/-- Two bytes as the instruction word they hold, high byte first: `w = hi * 256 + lo` (R52, R102). -/
def wordOfBytes (hi lo : Byte) : Word := wrap16 (hi.toNat * 256 + lo.toNat)

/-- The high byte of a word, the one stored at the lower address (R52). -/
def highByte (w : Word) : Byte := w.extractLsb' 8 8

/-- The low byte of a word, the one stored at the higher address (R52). -/
def lowByte (w : Word) : Byte := w.extractLsb' 0 8

/-- Decode the instruction at the head of a byte list, and give the bytes after it: every instruction is two bytes
(R70), high byte first (R52). -/
def decodeBytes : List Byte → Except DecodeError (Instr × List Byte)
  | hi :: lo :: rest =>
    match decode (wordOfBytes hi lo) with
    | .ok i => .ok (i, rest)
    | .error e => .error e
  | _ => .error .truncated

/-- A word from its four nibbles, the first most significant (R8). -/
def wordOfNibbles (op : Nat) (x y n : Nibble) : Word :=
  wrap16 (op * 0x1000 + x.toNat * 0x100 + y.toNat * 0x10 + n.toNat)

/-- Format A, `ooooAAAAAAAAAAAA` (R72). -/
def encodeA (op : Nat) (nnn : Addr12) : Word := wrap16 (op * 0x1000 + nnn.toNat)

/-- Formats XI, `ooooXXXXIIIIIIII`, and X, `ooooXXXXoooooooo` (R72). -/
def encodeXI (op : Nat) (x : Reg) (nn : Byte) : Word := wrap16 (op * 0x1000 + x.toNat * 0x100 + nn.toNat)

/-- The encoder: the word of an instruction, from the formats of R72 and the match column of R75. -/
def encode : Instr → Word
  | .nop => 0x0000
  | .cls => 0x00E0
  | .ret => 0x00EE
  | .jp nnn => encodeA 0x1 nnn
  | .call nnn => encodeA 0x2 nnn
  | .seImm x nn => encodeXI 0x3 x nn
  | .sneImm x nn => encodeXI 0x4 x nn
  | .seReg x y => wordOfNibbles 0x5 x y 0x0
  | .ldImm x nn => encodeXI 0x6 x nn
  | .addImm x nn => encodeXI 0x7 x nn
  | .ldReg x y => wordOfNibbles 0x8 x y 0x0
  | .orReg x y => wordOfNibbles 0x8 x y 0x1
  | .andReg x y => wordOfNibbles 0x8 x y 0x2
  | .xorReg x y => wordOfNibbles 0x8 x y 0x3
  | .addReg x y => wordOfNibbles 0x8 x y 0x4
  | .subReg x y => wordOfNibbles 0x8 x y 0x5
  | .shr x y => wordOfNibbles 0x8 x y 0x6
  | .subnReg x y => wordOfNibbles 0x8 x y 0x7
  | .shl x y => wordOfNibbles 0x8 x y 0xE
  | .sneReg x y => wordOfNibbles 0x9 x y 0x0
  | .ldI nnn => encodeA 0xA nnn
  | .jpV0 nnn => encodeA 0xB nnn
  | .rnd x nn => encodeXI 0xC x nn
  | .drw x y n => wordOfNibbles 0xD x y n
  | .skp x => encodeXI 0xE x 0x9E
  | .sknp x => encodeXI 0xE x 0xA1
  | .ldFromDT x => encodeXI 0xF x 0x07
  | .ldKey x => encodeXI 0xF x 0x0A
  | .ldDT x => encodeXI 0xF x 0x15
  | .ldST x => encodeXI 0xF x 0x18
  | .addI x => encodeXI 0xF x 0x1E
  | .ldF x => encodeXI 0xF x 0x29
  | .ldB x => encodeXI 0xF x 0x33
  | .storeRegs x => encodeXI 0xF x 0x55
  | .loadRegs x => encodeXI 0xF x 0x65

/-- An instruction's two bytes, high byte first (R52, R70). -/
def encodeBytes (i : Instr) : List Byte := [highByte (encode i), lowByte (encode i)]

/-- The instruction the decoder reads from the table word `w` of `nbits` bits: its word laid out as the hardware stores
it, high byte first, and given to the decoder (log 4). -/
def decodeTableWord (nbits w : Nat) : Option Instr :=
  let word := wrap16 (w % 2 ^ nbits)
  match decodeBytes [highByte word, lowByte word] with
  | .ok (i, _) => some i
  | .error _ => none

end Sys2Proof
end

