-- ==== Sys2Proof/Machine/State.lean ====
section
/-! DEFINITION. The state of the block (R32), its faults (R250), and the state after reset (R35). -/

namespace Sys2Proof.Machine

/-- Memory: the bytes of mem[0..4095] (R30, R50) that differ from the reset contents, as (address, byte) pairs with
strictly rising addresses. An address that is not listed reads as its reset contents (Ops: `Memory.initialByte`; log 3). -/
abbrev Memory := List Host.Cell

/-- The framebuffer: 32 rows of 64 one-bit pixels, row-major (R28, R190). -/
abbrev Framebuffer := Vector (Vector Bool 64) 32

/-- Everything the spec gives the machine (R32), and one field of the model's own (`draws`). -/
structure State where
  /-- V0 to VF; VF is the flag register, the same storage (R20, R21) -/
  v : Vector Byte 16
  /-- the program counter (R23) -/
  pc : Word
  /-- the address register I (R25) -/
  i : Word
  /-- the stack pointer, the count of entries in use, 0 to 16 (R26; log 11) -/
  sp : Fin 17
  /-- the call stack (R26) -/
  stack : Vector Word 16
  /-- the delay timer DT (R27) -/
  dt : Byte
  /-- the sound timer ST (R27) -/
  st : Byte
  /-- the framebuffer (R28) -/
  fb : Framebuffer
  /-- the key state (R29) -/
  key : Vector Bool 16
  /-- memory (R30) -/
  mem : Memory
  /-- the MODEL'S OWN field: how many random bytes CXNN has consumed; `Config.rand8` is applied to it (log 1) -/
  draws : Nat
  deriving DecidableEq, Repr

/-- The two kinds of StackFault (R250). -/
inductive StackFaultKind where
  /-- 2NNN with the stack full (R254) -/
  | overflow
  /-- 00EE with the stack empty (R255) -/
  | underflow
  deriving DecidableEq, Repr

/-- The fault records of R250. Every one is the spec's own fault, reported with the state left as it was (R106, R260):
the model stops where the block reports, which is exact. -/
inductive Fault where
  /-- code 1, raised by a step that fetched an illegal word (R251); safe: the block reports the same fault -/
  | decodeFault (pc word : Word)
  /-- code 2, source = fetch, raised by a step with pc of 0xFFF or more (R101, R252); safe: the block reports the same -/
  | fetchAddressFault (pc : Word)
  /-- code 2, source = data, raised by DXYN, FX33, FX55, FX65; `addr` is the lowest address of 4096 or more the
  instruction would touch (R66, R253); safe: the block reports the same fault -/
  | dataAddressFault (pc word : Word) (addr : Nat)
  /-- code 3, raised by 2NNN and 00EE (R254, R255); safe: the block reports the same fault -/
  | stackFault (kind : StackFaultKind) (pc word : Word)
  /-- code 4, raised by the load command (R257); safe: the block reports the same fault -/
  | loadFault (length : Nat)
  /-- code 5, raised by EX9E and EXA1 with V[X] above 15 (R256); safe by D19: the spec's own addition -/
  | keyIndexFault (pc word : Word) (value : Byte)
  /-- code 6, raised by set_key with an index outside 0 to 15 (R258, R236; log 7); safe by D5: the spec's own addition -/
  | keyArgumentError (index : Int)
  deriving DecidableEq, Repr

/-- What the model gives no meaning to. No instruction is refused. -/
inductive Refusal where
  /-- an instruction with no meaning yet, raised by an arm of `exec`; safe: the model stops. No arm raises it. -/
  | notModelled (mnemonic : String)
  deriving DecidableEq, Repr

/-- The state after initialize or reset (R35, R280), with the default FONT in the unlisted low memory (R37). Every value
is the spec's but that of `draws`, the model's own (DESIGN CHOICE, log 1). -/
def State.reset : State where
  v := Vector.replicate 16 0
  pc := 0x200
  i := 0
  sp := 0
  stack := Vector.replicate 16 0
  dt := 0
  st := 0
  fb := Vector.replicate 32 (Vector.replicate 64 false)
  key := Vector.replicate 16 false
  mem := []
  draws := 0

end Sys2Proof.Machine
end

