-- ==== Sys2Proof/Machine/Ops.lean ====
section
/-! DEFINITION. The named operations over memory, registers, the call stack, the framebuffer, the keys and the random byte
source; raising a fault; and fetching an instruction. -/

namespace Sys2Proof.Machine

/-- What a step or a meaning answers. -/
abbrev Result := Host.Outcome State Fault Refusal

/-! ### Memory (20_memory.md) -/

/-- What an address that the memory does not list reads as: the reset contents, FONT at 0x000 to 0x04F and 0x00 above
(R35, R36; log 3). -/
def Memory.initialByte (a : Nat) : Byte :=
  if h : a < Config.fontSize then Config.font[a] else 0

/-- mem[a]: the byte last written there, or its reset value (R55). -/
def Memory.get : Memory → Nat → Byte
  | [], a => Memory.initialByte a
  | (b, w) :: rest, a => if a = b then w else Memory.get rest a

/-- The memory without any entry for address a. -/
def Memory.erase (m : Memory) (a : Nat) : Memory := m.filter fun c => c.1 != a

/-- The memory with an entry for address a put before the first entry of a higher address. -/
def Memory.insertCell : Memory → Nat → Byte → Memory
  | [], a, w => [(a, w)]
  | (b, u) :: rest, a, w => if a < b then (a, w) :: (b, u) :: rest else (b, u) :: Memory.insertCell rest a w

/-- mem[a] <- w (R55), keeping the canonical form: a byte equal to what the unlisted address reads as is not listed.
There is no mem[a] at 4096 or above (R50): such a write changes nothing, and no rule reaches it, since every address is
checked first (R66). -/
def Memory.put (m : Memory) (a : Nat) (w : Byte) : Memory :=
  if a < Config.memSize then
    if w = Memory.initialByte a then m.erase a else (m.erase a).insertCell a w
  else m

/-- The canonical form: addresses strictly rising and inside the memory, no entry equal to the reset contents (log 3). -/
abbrev Memory.wf (m : Memory) : Prop :=
  m.Pairwise (fun c d => c.1 < d.1) ∧ ∀ c ∈ m, c.1 < Config.memSize ∧ c.2 ≠ Memory.initialByte c.1

/-- Store bytes at ascending addresses from `base`, one a byte (R53). -/
def Memory.putBytes (m : Memory) (base : Nat) : List Byte → Memory
  | [] => m
  | w :: ws => Memory.putBytes (m.put base w) (base + 1) ws

/-- The 16-bit word at a and a + 1, big-endian (R52, R102). -/
def Memory.word (m : Memory) (a : Nat) : Word := wordOfBytes (m.get a) (m.get (a + 1))

/-! ### Registers (10_state.md) -/

/-- The index of VF, the flag register (R21). -/
abbrev flagReg : Reg := 0xF

/-- V[x] (R10, R20): all 16 indices are legal and none is hard-wired. -/
def State.getV (s : State) (x : Reg) : Byte := s.v[x.toNat]'x.isLt

/-- V[x] <- w (R10, R20). -/
def State.setV (s : State) (x : Reg) (w : Byte) : State := { s with v := s.v.set x.toNat w x.isLt }

/-- pc <- t (R10): never checked (R109). -/
def State.setPc (s : State) (t : Word) : State := { s with pc := t }

/-- I <- t (R25). -/
def State.setI (s : State) (t : Word) : State := { s with i := t }

/-- DT <- t (R27). -/
def State.setDT (s : State) (t : Byte) : State := { s with dt := t }

/-- ST <- t (R27). -/
def State.setST (s : State) (t : Byte) : State := { s with st := t }

/-- The framebuffer replaced. -/
def State.setFb (s : State) (f : Framebuffer) : State := { s with fb := f }

/-- The memory replaced. -/
def State.setMem (s : State) (m : Memory) : State := { s with mem := m }

/-- `for k in 0..n: V[k] <- mem[base + k]`, k upward from 0 (R175). -/
def State.loadV (s : State) (base : Nat) : Nat → State
  | 0 => s.setV 0 (s.mem.get base)
  | k + 1 => (State.loadV s base k).setV (BitVec.ofNat 4 (k + 1)) (s.mem.get (base + (k + 1)))

/-- The values of V0 to VX, in order (R174). -/
def State.regsUpTo (s : State) (x : Reg) : List Byte :=
  (List.range (x.toNat + 1)).map fun k => s.getV (BitVec.ofNat 4 k)

/-! ### The stack pointer controller (R26, R121, R123) -/

/-- Push: checks for overflow, writes stack[sp], then increments sp (R26, R123). `none` is the overflow. -/
def State.push (s : State) (w : Word) : Option State :=
  if h : s.sp.val < 16 then
    some { s with stack := s.stack.set s.sp.val w h, sp := ⟨s.sp.val + 1, by omega⟩ }
  else none

/-- Pop: checks for underflow, decrements sp, then reads stack[sp], which keeps its value (R26, R121). `none` is the
underflow. -/
def State.pop (s : State) : Option (Word × State) :=
  if h : s.sp.val = 0 then none
  else some (s.stack[s.sp.val - 1]'(by omega), { s with sp := ⟨s.sp.val - 1, by omega⟩ })

/-! ### The framebuffer (44_display.md) -/

/-- fb[x][y] (R190). -/
def Framebuffer.pixel (f : Framebuffer) (x : Fin 64) (y : Fin 32) : Bool := f[y][x]

/-- fb[x][y] <- not fb[x][y] (R192). -/
def Framebuffer.flip (f : Framebuffer) (x : Fin 64) (y : Fin 32) : Framebuffer :=
  f.set y (f[y].set x (!f[y][x]))

/-- All 2048 pixels false (R191). -/
def Framebuffer.clear : Framebuffer := Vector.replicate 32 (Vector.replicate 64 false)

/-- Column x0 + b, modulo 64 (R192). -/
def column (x0 b : Nat) : Fin 64 := ⟨(x0 + b) % 64, Nat.mod_lt _ (by decide)⟩

/-- Row y0 + r, modulo 32 (R192). -/
def rowOf (y0 r : Nat) : Fin 32 := ⟨(y0 + r) % 32, Nat.mod_lt _ (by decide)⟩

/-- What a draw carries along: the framebuffer so far, and c, whether a pixel went from set to unset (R192, R193). -/
structure Drawing where
  fb : Framebuffer
  hit : Bool
  deriving DecidableEq, Repr

/-- One bit of one sprite row: bit 7 - b of the row at column x0 + b (R192; bit 7 leftmost is PRESUMED by the spec from
general knowledge, log 10). A 0 bit leaves its pixel. -/
def Drawing.bit (row : Byte) (x0 : Nat) (y : Fin 32) (d : Drawing) (b : Nat) : Drawing :=
  if row.getLsbD (7 - b) then
    { fb := d.fb.flip (column x0 b) y, hit := d.hit || d.fb.pixel (column x0 b) y }
  else d

/-- One sprite row: `for b in 0..7` (R192). -/
def Drawing.row (row : Byte) (x0 : Nat) (y : Fin 32) (d : Drawing) : Drawing :=
  (List.range 8).foldl (Drawing.bit row x0 y) d

/-- The sprite of n rows at `base`: `for r in 0..N-1`, row r at y0 + r (R192). -/
def Drawing.sprite (m : Memory) (base x0 y0 : Nat) (d : Drawing) : Nat → Drawing
  | 0 => d
  | n + 1 => Drawing.row (m.get (base + n)) x0 (rowOf y0 n) (Drawing.sprite m base x0 y0 d n)

/-! ### The keys (45_input_timers.md) -/

/-- key[k] (R210). -/
def State.keyDown (s : State) (k : Reg) : Bool := s.key[k.toNat]'k.isLt

/-- The 16 key indices, upward from 0. -/
def keyIndices : List Reg := (List.range 16).map fun k => BitVec.ofNat 4 k

/-- `min { k in 0..15 | key[k] }`, if there is one (R215). -/
def State.lowestKey (s : State) : Option Reg := keyIndices.find? fun k => s.keyDown k

/-! ### The random byte source (R7, R13, R154) -/

/-- The random byte the next CXNN consumes: a free value (log 1). -/
def State.randomByte (s : State) : Byte := Config.rand8 s.draws

/-- The draw is consumed (log 1). -/
def State.consumeDraw (s : State) : State := { s with draws := s.draws + 1 }

/-! ### Raising a fault, and fetching (40_engine.md, 60_exceptions.md) -/

/-- `raise <Fault>(info)`: TAKING A FAULT. It saves nothing, changes no mode, uses no stack and goes to no vector (R260): the
command ends, its record is the result, and the state stays as it was before the step (R11, R106). There is no return
from it: no handler runs in the block (R261). -/
def raise (f : Fault) : Result := .fault f

/-- The address `a` of the executing instruction: the fetch has advanced pc to a + 2 (R12, R103; log 5). -/
def State.insnAddr (s : State) : Word := s.pc - 2

/-- The fetch's advance, `pc <- wrap16(a + 2)` (R100, R103). -/
def State.advance (s : State) : State := s.setPc (s.pc + 2)

/-- The fetch bound check and the fetch (R101, R102). -/
def State.fetch (s : State) : Except Fault Word :=
  if 0xFFF ≤ s.pc.toNat then .error (.fetchAddressFault s.pc) else .ok (s.mem.word s.pc.toNat)

/-- Fetch and decode, with the faults in the order of R259. -/
def State.fetchDecode (s : State) : Except Fault Instr :=
  match s.fetch with
  | .error f => .error f
  | .ok w =>
    match decode w with
    | .error _ => .error (.decodeFault s.pc w)
    | .ok i => .ok i

/-- The same state with the 16-bit word w stored where the next step fetches, high byte first (R52). A pc of 0xFFF or more
fetches nothing (R101), so there pc is also set to the program's base (log 4). -/
def State.placeWord (s : State) (w : Word) : State :=
  let a := if 0xFFF ≤ s.pc.toNat then Config.progBase else s.pc.toNat
  { s with pc := wrap16 a, mem := s.mem.putBytes a [highByte w, lowByte w] }

end Sys2Proof.Machine
end

