-- ==== Sys2Proof/Machine/Flags.lean ====
section
/-! DEFINITION. The five ALU flags and the collision flag written to VF (R31), and the order of the two writes (R142). -/

namespace Sys2Proof.Machine

/-- A flag is exactly 0 or 1. -/
def flagByte (b : Bool) : Byte := if b then 1 else 0

/-- 8XY4: 1 if V[X] + V[Y] > 255, else 0 (R149). -/
def carryFlag (x y : Byte) : Byte := flagByte (decide (255 < x.toNat + y.toNat))

/-- 8XY5 and 8XY7, a - b: 0 if a borrow occurs, that is a < b, else 1 (R141, R150, R152). -/
def noBorrowFlag (a b : Byte) : Byte := flagByte (!decide (a.toNat < b.toNat))

/-- 8XY6: bit 0 before the shift (R151). -/
def lowBitFlag (x : Byte) : Byte := flagByte (x.getLsbD 0)

/-- 8XYE: bit 7 before the shift (R153). -/
def highBitFlag (x : Byte) : Byte := flagByte (x.getLsbD 7)

/-- DXYN: 1 if any pixel went from set to unset, else 0 (R192, R193). -/
def collisionFlag (hit : Bool) : Byte := flagByte hit

/-- The result to V[X] first, the flag to VF last, so that with X = F the flag is left (R142, C2). -/
def State.setResultThenFlag (s : State) (x : Reg) (result flag : Byte) : State :=
  (s.setV x result).setV flagReg flag

end Sys2Proof.Machine
end

