-- ==== Sys2Proof/Machine/Operands.lean ====
section
/-! DEFINITION. The operand forms: zero-extended fields, effective addresses and their bound check, key operands. -/

namespace Sys2Proof.Machine

/-- `zext_16(NNN)` (R9, R73). -/
def zextAddr (nnn : Addr12) : Word := wrap16 nnn.toNat

/-- `zext_16(V[x])` (R9). -/
def zextByte (w : Byte) : Word := wrap16 w.toNat

/-- The effective address I + k, an unbounded natural (R65). -/
def State.effAddr (s : State) (k : Nat) : Nat := s.i.toNat + k

/-- The data bound check for n accesses at I to I + n - 1: the lowest address of 4096 or more among them, `max(I, 4096)`, or
none if every access is inside (R66). -/
def State.outOfBounds (s : State) (n : Nat) : Option Nat :=
  if 0 < n ∧ Config.memSize ≤ s.effAddr (n - 1) then some (max s.i.toNat Config.memSize) else none

/-- Check the n accesses of instruction i before it changes anything: raise AddressFault(data) or go on with k (R66, R106).
The record's pc and word are the executing instruction's (R250; log 5). -/
def State.checkData (s : State) (i : Instr) (n : Nat) (k : Result) : Result :=
  match s.outOfBounds n with
  | some a => raise (.dataAddressFault s.insnAddr (encode i) a)
  | none => k

/-- The key a byte names, if it is at most 15: the full byte, not masked (R212). -/
def keyOperand (w : Byte) : Option Reg := if w.toNat ≤ 15 then some (BitVec.ofNat 4 w.toNat) else none

/-- Check the key operand of instruction i before anything else: raise KeyIndexFault or go on (R212, R213, R256). -/
def State.checkKey (s : State) (i : Instr) (w : Byte) (k : Reg → Result) : Result :=
  match keyOperand w with
  | none => raise (.keyIndexFault s.insnAddr (encode i) w)
  | some j => k j

/-- A skip: a further 2 bytes when the condition holds (R108). -/
def State.skipIf (s : State) (c : Bool) : State := if c then s.setPc (s.pc + 2) else s

end Sys2Proof.Machine
end

