-- ==== Sys2Proof/Machine/Alu.lean ====
section
/-! DEFINITION. Register loads, logic, arithmetic with flags, and the random instruction (42_alu.md). -/

namespace Sys2Proof.Machine

/-- 6XNN: `V[X] <- NN` (R143). -/
def execLdImm (x : Reg) (nn : Byte) (s : State) : Result := .next (s.setV x nn)

/-- 7XNN: `V[X] <- wrap8(V[X] + NN)`, no flag (R144). -/
def execAddImm (x : Reg) (nn : Byte) (s : State) : Result :=
  .next (s.setV x (wrap8 ((s.getV x).toNat + nn.toNat)))

/-- 8XY0: `V[X] <- V[Y]` (R145). -/
def execLdReg (x y : Reg) (s : State) : Result := .next (s.setV x (s.getV y))

/-- 8XY1: `V[X] <- V[X] | V[Y]`, VF not written unless X = F (R146). -/
def execOrReg (x y : Reg) (s : State) : Result := .next (s.setV x (s.getV x ||| s.getV y))

/-- 8XY2: `V[X] <- V[X] & V[Y]` (R147). -/
def execAndReg (x y : Reg) (s : State) : Result := .next (s.setV x (s.getV x &&& s.getV y))

/-- 8XY3: `V[X] <- V[X] ^ V[Y]` (R148). -/
def execXorReg (x y : Reg) (s : State) : Result := .next (s.setV x (s.getV x ^^^ s.getV y))

/-- 8XY4: the sum, then the carry in VF (R149). -/
def execAddReg (x y : Reg) (s : State) : Result :=
  let a := s.getV x
  let b := s.getV y
  .next (s.setResultThenFlag x (wrap8 (a.toNat + b.toNat)) (carryFlag a b))

/-- 8XY5: `x - y + 256 when x < y`, then the inverted borrow in VF (R150). -/
def execSubReg (x y : Reg) (s : State) : Result :=
  let a := s.getV x
  let b := s.getV y
  .next (s.setResultThenFlag x (wrap8 (a.toNat + 256 - b.toNat)) (noBorrowFlag a b))

/-- 8XY6: V[X] shifted right by one, then its old bit 0 in VF; V[Y] is not read (R151). -/
def execShr (x _y : Reg) (s : State) : Result :=
  let a := s.getV x
  .next (s.setResultThenFlag x (a >>> 1) (lowBitFlag a))

/-- 8XY7: `wrap8(y - x)`, then the inverted borrow in VF (R152). -/
def execSubnReg (x y : Reg) (s : State) : Result :=
  let a := s.getV x
  let b := s.getV y
  .next (s.setResultThenFlag x (wrap8 (b.toNat + 256 - a.toNat)) (noBorrowFlag b a))

/-- 8XYE: V[X] shifted left by one, then its old bit 7 in VF; V[Y] is not read (R153). -/
def execShl (x _y : Reg) (s : State) : Result :=
  let a := s.getV x
  .next (s.setResultThenFlag x (a <<< 1) (highBitFlag a))

/-- CXNN with the step's random byte given: `V[X] <- rand8 & NN` (R154). One draw is consumed. -/
def execRndWith (rand8 : Byte) (x : Reg) (nn : Byte) (s : State) : Result :=
  .next ((s.setV x (rand8 &&& nn)).consumeDraw)

/-- CXNN with the free random byte (R154; log 1). -/
def execRnd (x : Reg) (nn : Byte) (s : State) : Result := execRndWith s.randomByte x nn s

end Sys2Proof.Machine
end

