-- ==== Sys2Proof/Machine/Control.lean ====
section
/-! DEFINITION. No-op, return, jumps, call and the register skips (41_control_flow.md). Each runs on the state after the
fetch, where pc = a + 2 (R12). -/

namespace Sys2Proof.Machine

/-- 0000: nothing; pc stays a + 2 (R120). -/
def execNop (s : State) : Result := .next s

/-- 00EE: pop into pc, or StackFault(underflow) (R121, R255). -/
def execRet (s : State) : Result :=
  match s.pop with
  | none => raise (.stackFault .underflow s.insnAddr (encode .ret))
  | some (t, s') => .next (s'.setPc t)

/-- 1NNN: `pc <- zext_16(NNN)` (R122). -/
def execJp (nnn : Addr12) (s : State) : Result := .next (s.setPc (zextAddr nnn))

/-- 2NNN: push pc, which is a + 2, then jump; or StackFault(overflow) (R123, R254). -/
def execCall (nnn : Addr12) (s : State) : Result :=
  match s.push s.pc with
  | none => raise (.stackFault .overflow s.insnAddr (encode (.call nnn)))
  | some s' => .next (s'.setPc (zextAddr nnn))

/-- BNNN: `pc <- zext_16(V[0]) + zext_16(NNN)`, not masked (R124). -/
def execJpV0 (nnn : Addr12) (s : State) : Result :=
  .next (s.setPc (zextByte (s.getV 0) + zextAddr nnn))

/-- 3XNN: skip if V[X] = NN (R125). -/
def execSeImm (x : Reg) (nn : Byte) (s : State) : Result := .next (s.skipIf (s.getV x == nn))

/-- 4XNN: skip if V[X] != NN (R126). -/
def execSneImm (x : Reg) (nn : Byte) (s : State) : Result := .next (s.skipIf (s.getV x != nn))

/-- 5XY0: skip if V[X] = V[Y] (R127). -/
def execSeReg (x y : Reg) (s : State) : Result := .next (s.skipIf (s.getV x == s.getV y))

/-- 9XY0: skip if V[X] != V[Y] (R128). -/
def execSneReg (x y : Reg) (s : State) : Result := .next (s.skipIf (s.getV x != s.getV y))

end Sys2Proof.Machine
end

