-- ==== Sys2Proof/Machine/Display.lean ====
section
/-! DEFINITION. Clearing the screen and drawing a sprite (44_display.md). -/

namespace Sys2Proof.Machine

/-- 00E0: every pixel false (R191). -/
def execCls (s : State) : Result := .next (s.setFb Framebuffer.clear)

/-- The sprite of n rows at I drawn on the framebuffer at (V[X], V[Y]), with no collision yet (R192). -/
def State.drawn (s : State) (x y : Reg) (n : Nibble) : Drawing :=
  Drawing.sprite s.mem s.i.toNat (s.getV x).toNat (s.getV y).toNat { fb := s.fb, hit := false } n.toNat

/-- DXYN: check the N sprite bytes, draw, then write the collision to VF; the coordinates are the old registers (R192). -/
def execDrw (x y : Reg) (n : Nibble) (s : State) : Result :=
  s.checkData (.drw x y n) n.toNat
    (.next ((s.setFb (s.drawn x y n).fb).setV flagReg (collisionFlag (s.drawn x y n).hit)))

end Sys2Proof.Machine
end

