-- ==== Sys2Proof/Machine/Index.lean ====
section
/-! DEFINITION. The address register and the memory transfers (43_index_memory.md). FX33, FX55 and FX65 read I and never
write it (R176). -/

namespace Sys2Proof.Machine

/-- ANNN: `I <- zext_16(NNN)` (R170). -/
def execLdI (nnn : Addr12) (s : State) : Result := .next (s.setI (zextAddr nnn))

/-- FX1E: `I <- wrap16(I + zext_16(V[X]))`, VF not written (R171). -/
def execAddI (x : Reg) (s : State) : Result :=
  .next (s.setI (wrap16 (s.i.toNat + (s.getV x).toNat)))

/-- FX29: `I <- 5 * zext_16(V[X])`, the whole byte (R172, C3). -/
def execLdF (x : Reg) (s : State) : Result := .next (s.setI (wrap16 (5 * (s.getV x).toNat)))

/-- The hundreds, tens and ones digits of a byte, in that order (R173, R53). -/
def bcdDigits (w : Byte) : List Byte :=
  [wrap8 (w.toNat / 100), wrap8 (w.toNat / 10 % 10), wrap8 (w.toNat % 10)]

/-- FX33: the three digits of V[X] at I, I + 1, I + 2 (R173). -/
def execLdB (x : Reg) (s : State) : Result :=
  s.checkData (.ldB x) 3 (.next (s.setMem (s.mem.putBytes s.i.toNat (bcdDigits (s.getV x)))))

/-- FX55: V0 to VX at I upward, X + 1 bytes (R174). -/
def execStoreRegs (x : Reg) (s : State) : Result :=
  s.checkData (.storeRegs x) (x.toNat + 1) (.next (s.setMem (s.mem.putBytes s.i.toNat (s.regsUpTo x))))

/-- FX65: V0 to VX from I upward (R175). -/
def execLoadRegs (x : Reg) (s : State) : Result :=
  s.checkData (.loadRegs x) (x.toNat + 1) (.next (s.loadV s.i.toNat x.toNat))

end Sys2Proof.Machine
end

