-- ==== Sys2Proof/Machine/Input.lean ====
section
/-! DEFINITION. The key skips, the key wait, and the timer reads and writes (45_input_timers.md). -/

namespace Sys2Proof.Machine

/-- EX9E: skip if the key V[X] names is pressed, or KeyIndexFault (R212). -/
def execSkp (x : Reg) (s : State) : Result :=
  s.checkKey (.skp x) (s.getV x) fun k => .next (s.skipIf (s.keyDown k))

/-- EXA1: skip if the key V[X] names is not pressed, or KeyIndexFault (R213). -/
def execSknp (x : Reg) (s : State) : Result :=
  s.checkKey (.sknp x) (s.getV x) fun k => .next (s.skipIf (!s.keyDown k))

/-- FX07: `V[X] <- DT` (R214). -/
def execLdFromDT (x : Reg) (s : State) : Result := .next (s.setV x s.dt)

/-- FX0A: with no key pressed `pc <- wrap16(pc - 2)`, back to the instruction itself; else the lowest pressed key (R215). -/
def execLdKey (x : Reg) (s : State) : Result :=
  match s.lowestKey with
  | none => .next (s.setPc (s.pc - 2))
  | some k => .next (s.setV x (wrap8 k.toNat))

/-- FX15: `DT <- V[X]` (R216). -/
def execLdDT (x : Reg) (s : State) : Result := .next (s.setDT (s.getV x))

/-- FX18: `ST <- V[X]` (R217). -/
def execLdST (x : Reg) (s : State) : Result := .next (s.setST (s.getV x))

end Sys2Proof.Machine
end

