-- ==== Sys2Proof/Machine/Step.lean ====
section
/-! DEFINITION. One step: fetch, advance, decode, execute (R100), and the placing of the next instruction. -/

namespace Sys2Proof.Machine

/-- One fetch-decode-execute cycle, with the free random byte (R100, R234; log 1). A fault leaves the state as it was before
the step, pc included (R106): the outcome carries no other. -/
def step (s : State) : Host.Outcome State Fault Refusal :=
  match s.fetchDecode with
  | .error f => raise f
  | .ok i => exec i s.advance

/-- The state with the table word `w` of `nbits` bits stored where the next step fetches (log 4). -/
def State.withFetchWord (s : State) (nbits w : Nat) : State := s.placeWord (wrap16 (w % 2 ^ nbits))

end Sys2Proof.Machine
end

