-- ==== Sys2Proof/Machine/HostCommands.lean ====
section
/-! DEFINITION. The host's commands (47_host_interface.md R230), the reset of R280 for any FONT, the timer countdown of R265,
and runs of commands in any order (R232). -/

namespace Sys2Proof.Machine

/-- The commands of R230 with their arguments. -/
inductive Command where
  /-- `initialize`: a fresh state (R280) -/
  | init
  /-- the live state restored to the initialized condition (R280) -/
  | reset
  /-- copy a byte sequence into memory from 0x200 (R233) -/
  | load (bytes : List Byte)
  /-- one fetch-decode-execute cycle with the random byte the host supplies (R234) -/
  | step (rand8 : Byte)
  /-- one timer tick (R265) -/
  | tickTimers
  /-- a key pressed or released (R211; the index is an unbounded integer, log 7) -/
  | setKey (index : Int) (pressed : Bool)
  /-- the framebuffer for rendering (R194) -/
  | readDisplay
  deriving DecidableEq, Repr

/-- The results of R230. -/
inductive Response where
  /-- Ok -/
  | ok
  /-- a fault record (R250) -/
  | fault (f : Fault)
  /-- the 2048 pixels of read_display (R194) -/
  | display (pixels : Vector Bool 2048)
  /-- the model gives the instruction no meaning; never answered, since no arm of `exec` refuses -/
  | refused (r : Refusal)
  deriving DecidableEq, Repr

/-- The numbers of the fault kinds (R250). -/
def faultCode : Fault → Nat
  | .decodeFault _ _ => 1
  | .fetchAddressFault _ => 2
  | .dataAddressFault _ _ _ => 2
  | .stackFault _ _ _ => 3
  | .loadFault _ => 4
  | .keyIndexFault _ _ _ => 5
  | .keyArgumentError _ => 6

/-- The state of R35 for a given FONT (R7, R37, R280). -/
def State.resetWith (font : Config.Font) : State :=
  { State.reset with mem := Memory.putBytes [] 0 font.toList }

/-- initialize and reset (R280). The block's state is exactly that of R35; the model's own count of draws goes on, since the
random byte source is outside the block and is not reset (R34; log 6). -/
def resetCommand (font : Config.Font) (s : State) : State :=
  { State.resetWith font with draws := s.draws }

/-- load: LoadFault with no byte written, or the bytes from 0x200 up and nothing else (R233). -/
def loadCommand (bytes : List Byte) (s : State) : State × Response :=
  if Config.loadMax < bytes.length then (s, .fault (.loadFault bytes.length))
  else (s.setMem (s.mem.putBytes Config.progBase bytes), .ok)

/-- One timer: down by 1 if nonzero (R265). -/
def countDown (t : Byte) : Byte := if 0 < t.toNat then t - 1 else t

/-- tick_timers (R265). -/
def tickTimersCommand (s : State) : State := (s.setDT (countDown s.dt)).setST (countDown s.st)

/-- set_key: KeyArgumentError with no change, or one flag written (R211). The legal indices are 0 to 15; all others are refused
(R236; log 7). -/
def setKeyCommand (index : Int) (pressed : Bool) (s : State) : State × Response :=
  if h : 0 ≤ index ∧ index < 16 then ({ s with key := s.key.set index.toNat pressed (by omega) }, .ok)
  else (s, .fault (.keyArgumentError index))

/-- read_display: pixel (x, y) at the linear index y * 64 + x (R190, R194). -/
def readDisplay (s : State) : Vector Bool 2048 :=
  Vector.ofFn fun k => s.fb.pixel ⟨k.val % 64, Nat.mod_lt _ (by decide)⟩ ⟨k.val / 64, by omega⟩

/-- Execute with the step's random byte given: only CXNN reads it (R13, R110, R234). -/
def execWith (rand8 : Byte) (i : Instr) (s : State) : Result :=
  match i with
  | .rnd x nn => execRndWith rand8 x nn s
  | i => exec i s

/-- `step(S, rand8)`, the step command with its random byte (R100, R234). -/
def stepWith (rand8 : Byte) (s : State) : Result :=
  match s.fetchDecode with
  | .error f => raise f
  | .ok i => execWith rand8 i s.advance

/-- The step command's effect and result: a fault leaves the state exactly as it was (R106, R107). -/
def stepCommand (rand8 : Byte) (s : State) : State × Response :=
  match stepWith rand8 s with
  | .next t => (t, .ok)
  | .fault f => (s, .fault f)
  | .refused r => (s, .refused r)

/-- One command, to completion (R231). -/
def runCommand (font : Config.Font) (c : Command) (s : State) : State × Response :=
  match c with
  | .init => (resetCommand font s, .ok)
  | .reset => (resetCommand font s, .ok)
  | .load bytes => loadCommand bytes s
  | .step rand8 => stepCommand rand8 s
  | .tickTimers => (tickTimersCommand s, .ok)
  | .setKey index pressed => setKeyCommand index pressed s
  | .readDisplay => (s, .display (readDisplay s))

/-- The state after commands issued one after the other, in the order of the list (R231); every order is allowed (R232). -/
def runCommands (font : Config.Font) : List Command → State → State
  | [], s => s
  | c :: cs, s => runCommands font cs (runCommand font c s).1

end Sys2Proof.Machine
end

