-- ==== Sys2Proof/Safety.lean ====
section
/-! DEFINITION. The terms the claims use: the invariant of the machine, and what one state has in common with another. -/

namespace Sys2Proof.Machine

/-- No return address in use is above 0x1000: a call at 0xFFE pushes 0x1000 and none pushes more (R123). -/
abbrev StackBounded (s : State) : Prop := ∀ k : Fin 16, k.val < s.sp.val → s.stack[k].toNat ≤ 0x1000

/-- pc is at most 0x10FE, the largest value any rule can put in it (R24). -/
abbrev PcBounded (s : State) : Prop := s.pc.toNat ≤ 0x10FE

/-- THE INVARIANT: the memory has its canonical form, which is the model's own representation (log 3), and pc and the return
addresses in use stay in the range no 16-bit wrap can leave (R24, whose bound the spec marks as derived). -/
abbrev MachineInv (s : State) : Prop := s.mem.wf ∧ PcBounded s ∧ StackBounded s

/-- The parts of the state, for the frames. -/
inductive Part where
  | regs | pc | index | stack | delay | sound | display | keys | memory | draws
  deriving DecidableEq, Repr

/-- One part of the state is the same in both: every register, every pixel, every key, the stack pointer and every stack
entry, and every byte of memory as it is read. -/
def SamePart (s t : State) : Part → Prop
  | .regs => ∀ r, t.getV r = s.getV r
  | .pc => t.pc = s.pc
  | .index => t.i = s.i
  | .stack => t.sp = s.sp ∧ ∀ k : Fin 16, t.stack[k] = s.stack[k]
  | .delay => t.dt = s.dt
  | .sound => t.st = s.st
  | .display => ∀ x y, t.fb.pixel x y = s.fb.pixel x y
  | .keys => ∀ k, t.keyDown k = s.keyDown k
  | .memory => ∀ a, t.mem.get a = s.mem.get a
  | .draws => t.draws = s.draws

/-- Every part of the state but those listed is the same. -/
def SameBut (s t : State) (parts : List Part) : Prop := ∀ p, p ∉ parts → SamePart s t p

/-- Every register but those listed is the same. -/
def RegsSameBut (s t : State) (rs : List Reg) : Prop := ∀ r, r ∉ rs → t.getV r = s.getV r

/-- Every byte of memory outside the n bytes at base reads the same. -/
def MemorySameOutside (s t : State) (base n : Nat) : Prop :=
  ∀ a, a < base ∨ base + n ≤ a → t.mem.get a = s.mem.get a

/-- `b` is what address `a` holds once the n bytes `value 0` to `value (n - 1)` are stored over memory `m` from `base` up: the
stored byte inside that range, the old byte outside it (R55). -/
def HoldsAfterStore (m : Memory) (base n : Nat) (value : Nat → Nat) (a b : Nat) : Prop :=
  (∀ k < n, a = base + k → b = value k) ∧ (a < base ∨ base + n ≤ a → b = (m.get a).toNat)

/-- The next fetch of t reads, high byte first, what memory holds at its pc and pc + 1 once those n bytes are stored over s's
(R52, R63). -/
def FetchesAfterStore (s t : State) (base n : Nat) (value : Nat → Nat) : Prop :=
  ∃ w, t.pc = s.pc ∧ t.fetch = .ok w ∧
    HoldsAfterStore s.mem base n value s.pc.toNat (w.toNat / 256) ∧
    HoldsAfterStore s.mem base n value (s.pc.toNat + 1) (w.toNat % 256)

/-- A 1 bit of the sprite row lands on column x: bit 7 - b of the row at column x0 + b, modulo 64, for some b below k
(R192; k = 8 for the whole row). -/
def RowBitAt (row : Byte) (x0 k : Nat) (x : Fin 64) : Prop :=
  ∃ b, b < k ∧ x.val = (x0 + b) % 64 ∧ row.getLsbD (7 - b) = true

/-- A 1 bit of the sprite of n rows at `base`, drawn at (x0, y0), lands on pixel (x, y): row r at y0 + r, modulo 32 (R192). -/
def SpriteBitAt (m : Memory) (base x0 y0 n : Nat) (x : Fin 64) (y : Fin 32) : Prop :=
  ∃ r, r < n ∧ y.val = (y0 + r) % 32 ∧ RowBitAt (m.get (base + r)) x0 8 x

/-- What the execute stage of instruction i raises on state s (R250, R253 to R256), with the record's pc and word given. -/
def executeFault (i : Instr) (s : State) (pc w : Word) (f : Fault) : Prop :=
  match i with
  | .ret => s.sp.val = 0 ∧ f = .stackFault .underflow pc w
  | .call _ => s.sp.val = 16 ∧ f = .stackFault .overflow pc w
  | .skp x => 15 < (s.getV x).toNat ∧ f = .keyIndexFault pc w (s.getV x)
  | .sknp x => 15 < (s.getV x).toNat ∧ f = .keyIndexFault pc w (s.getV x)
  | .ldB _ => 4096 ≤ s.i.toNat + 2 ∧ f = .dataAddressFault pc w (max s.i.toNat 4096)
  | .storeRegs x => 4096 ≤ s.i.toNat + x.toNat ∧ f = .dataAddressFault pc w (max s.i.toNat 4096)
  | .loadRegs x => 4096 ≤ s.i.toNat + x.toNat ∧ f = .dataAddressFault pc w (max s.i.toNat 4096)
  | .drw _ _ n => 0 < n.toNat ∧ 4096 ≤ s.i.toNat + n.toNat - 1 ∧ f = .dataAddressFault pc w (max s.i.toNat 4096)
  | .nop | .cls | .jp _ | .seImm _ _ | .sneImm _ _ | .seReg _ _ | .ldImm _ _ | .addImm _ _ | .ldReg _ _
  | .orReg _ _ | .andReg _ _ | .xorReg _ _ | .addReg _ _ | .subReg _ _ | .shr _ _ | .subnReg _ _ | .shl _ _
  | .sneReg _ _ | .ldI _ | .jpV0 _ | .rnd _ _ | .ldFromDT _ | .ldKey _ | .ldDT _ | .ldST _ | .addI _ | .ldF _ => False

/-- The number of bytes an instruction accesses through I (R51). -/
def dataAccesses : Instr → Nat
  | .ldB _ => 3
  | .storeRegs x => x.toNat + 1
  | .loadRegs x => x.toNat + 1
  | .drw _ _ n => n.toNat
  | .nop | .cls | .ret | .jp _ | .call _ | .seImm _ _ | .sneImm _ _ | .seReg _ _ | .ldImm _ _ | .addImm _ _
  | .ldReg _ _ | .orReg _ _ | .andReg _ _ | .xorReg _ _ | .addReg _ _ | .subReg _ _ | .shr _ _ | .subnReg _ _
  | .shl _ _ | .sneReg _ _ | .ldI _ | .jpV0 _ | .rnd _ _ | .skp _ | .sknp _ | .ldFromDT _ | .ldKey _ | .ldDT _
  | .ldST _ | .addI _ | .ldF _ => 0

/-- The instructions that write VF as a flag, or because they name it as their destination (R31). -/
def writesVF : Instr → Bool
  | .addReg _ _ | .subReg _ _ | .shr _ _ | .subnReg _ _ | .shl _ _ | .drw _ _ _ => true
  | .ldImm x _ | .addImm x _ | .ldReg x _ | .orReg x _ | .andReg x _ | .xorReg x _ | .rnd x _
  | .ldFromDT x | .ldKey x | .loadRegs x => x == 0xF
  | .nop | .cls | .ret | .jp _ | .call _ | .seImm _ _ | .sneImm _ _ | .seReg _ _ | .sneReg _ _ | .ldI _
  | .jpV0 _ | .skp _ | .sknp _ | .ldDT _ | .ldST _ | .addI _ | .ldF _ | .ldB _ | .storeRegs _ => false

/-- A state some sequence of commands leads to from the reset state of some FONT (R230, R232). -/
def Reachable (s : State) : Prop := ∃ font cs, runCommands font cs (State.resetWith font) = s

end Sys2Proof.Machine
end

