-- ==== Sys2Proof/Certificates/Slice0/Obligations.lean ====
section
/-! DEFINITION. The statements about the model, each from a numbered rule of spec/ or derived from its sections. Instructions are
stated on the state an instruction rule runs on, the one after the fetch (R12): its pc is the instruction's address plus 2. -/

open Sys2Proof Sys2Proof.Machine

/-! ### Reset and the invariant -/

/-- R35, R280: what initialize and reset leave, from any state and for any FONT (its bytes are an argument; log 2). -/
def Obligations.ResetLeavesTheTableOfR35 : Prop :=
  ∀ (font : Config.Font) (s : State) (c : Command), c = .init ∨ c = .reset →
    ∃ t, runCommand font c s = (t, .ok) ∧ (∀ r, t.getV r = 0) ∧ t.pc = 0x200 ∧ t.i = 0 ∧ t.sp.val = 0 ∧
      (∀ k : Fin 16, t.stack[k] = 0) ∧ t.dt = 0 ∧ t.st = 0 ∧ (∀ x y, t.fb.pixel x y = false) ∧
      (∀ k, t.keyDown k = false) ∧ (∀ (a : Nat) (h : a < 80), t.mem.get a = font[a]) ∧
      (∀ a, 80 ≤ a → a < 4096 → t.mem.get a = 0)

/-- The model's `State.reset` is the reset state of the default FONT (R37; the bytes are PRESUMED, log 2) and lists no byte of
memory (log 3). -/
def Obligations.ResetIsTheResetOfTheDefaultFont : Prop :=
  State.resetWith Config.font = State.reset ∧ State.reset.mem = []

/-- The invariant holds at reset, for every FONT. Its pc and stack clauses are R24's bounds, which the spec marks as derived; its
clause that the memory list is canonical is about the model's own representation (log 3). -/
def Obligations.ResetMeetsTheInvariant : Prop :=
  MachineInv State.reset ∧ ∀ font, MachineInv (State.resetWith font)

/-- From every state with the invariant, a step that completes keeps it: pc stays at most 0x10FE, and the return addresses in
use at most 0x1000 (R24; an inference the spec marks as its own), and the memory list stays canonical, a clause about the model's
own representation (log 3). -/
def Obligations.StepKeepsTheInvariant : Prop :=
  ∀ s t, MachineInv s → step s = .next t → MachineInv t

/-- Every command keeps the invariant, with any random byte, payload or key, whether it completes or faults
(R230). The bounds of pc and the stack are R24's, an inference the spec marks as its own; the canonical form of the memory list is
the model's own representation (log 3). -/
def Obligations.EveryCommandKeepsTheInvariant : Prop :=
  ∀ font c s, MachineInv s → MachineInv (runCommand font c s).1

/-- Whatever commands the host issues, in whatever order (R232), pc never leaves the range no 16-bit wrap can reach
(R24; an inference the spec marks as its own), and the memory list stays canonical, the model's own representation (log 3). -/
def Obligations.ReachableStatesMeetTheInvariant : Prop :=
  ∀ s, Reachable s → MachineInv s

/-! ### Encoding -/

/-- Decoding the word of an instruction gives it back, for every instruction and every operand (R72, R75). -/
def Obligations.DecodeOfEncodeIsTheInstruction : Prop :=
  ∀ i, decode (encode i) = .ok i ∧ decodeBytes (encodeBytes i) = .ok (i, [])

/-- A word that decodes is the word of the instruction it decodes to: each word has one meaning (R76). -/
def Obligations.EncodeOfDecodeIsTheWord : Prop :=
  ∀ w i, decode w = .ok i → encode i = w

/-- R75: a word that a row of the table accepts decodes to that row's instruction, and one that no row accepts is rejected. -/
def Obligations.DecoderFollowsTheOpcodeTable : Prop :=
  (∀ w, ∀ r ∈ opcodeRows, r.accepts w = true → ∃ i, decode w = .ok i ∧ i.mnemonic = r.mnemonic) ∧
  (∀ w, legalWord w = false → decode w = .error (.illegalWord w))

/-- No word matches two rows of the table (R76, which the spec marks as derived). -/
def Obligations.NoWordMatchesTwoRows : Prop :=
  ∀ w, ∀ r ∈ opcodeRows, ∀ q ∈ opcodeRows, r.accepts w = true → q.accepts w = true → r = q

/-- Words written out bit by bit from R72 and R75, one for each family. -/
def Obligations.WrittenOutWordsDecode : Prop :=
  decode 0b0000000011101110#16 = .ok .ret ∧ decode 0b0001101010111100#16 = .ok (.jp 0xABC) ∧
  decode 0b0011101000010010#16 = .ok (.seImm 0xA 0x12) ∧ decode 0b1000000100100101#16 = .ok (.subReg 1 2) ∧
  decode 0b1101000100100011#16 = .ok (.drw 1 2 3) ∧ decode 0b1110111110100001#16 = .ok (.sknp 0xF) ∧
  decode 0b1111001001100101#16 = .ok (.loadRegs 2)

/-- R77, R251: the sets of illegal words, each raising DecodeFault when a step fetches it. -/
def Obligations.IllegalWordsRaiseDecodeFault : Prop :=
  ∀ (s : State) (w : Word), s.pc.toNat < 0xFFF → w = s.mem.word s.pc.toNat →
    ((w.toNat ≤ 0x0FFF ∧ w ≠ 0x0000 ∧ w ≠ 0x00E0 ∧ w ≠ 0x00EE) ∨
     (w.toNat / 4096 = 5 ∧ w.toNat % 16 ≠ 0) ∨
     (w.toNat / 4096 = 8 ∧ w.toNat % 16 ∈ [8, 9, 0xA, 0xB, 0xC, 0xD, 0xF]) ∨
     (w.toNat / 4096 = 9 ∧ w.toNat % 16 ≠ 0) ∨
     (w.toNat / 4096 = 0xE ∧ w.toNat % 256 ∉ [0x9E, 0xA1]) ∨
     (w.toNat / 4096 = 0xF ∧ w.toNat % 256 ∉ [0x07, 0x0A, 0x15, 0x18, 0x1E, 0x29, 0x33, 0x55, 0x65])) →
    step s = .fault (.decodeFault s.pc w)

/-! ### The step -/

/-- R102, R103: a step runs the instruction the two bytes at pc hold, the high byte first, on the state with pc advanced by 2. -/
def Obligations.StepRunsTheDecodedInstruction : Prop :=
  ∀ (s : State) (w : Word) (i : Instr), s.pc.toNat < 0xFFF →
    w.toNat = (s.mem.get s.pc.toNat).toNat * 256 + (s.mem.get (s.pc.toNat + 1)).toNat →
    decode w = .ok i → step s = exec i { s with pc := wrap16 (s.pc.toNat + 2) }

/-- R101: the fetch bound. A pc of 0xFFF or more raises AddressFault(fetch), whatever memory holds, and a lower one never does. -/
def Obligations.FetchBoundIs0xFFF : Prop :=
  ∀ s : State, (0xFFF ≤ s.pc.toNat → ∀ m, step { s with mem := m } = .fault (.fetchAddressFault s.pc)) ∧
    (s.pc.toNat < 0xFFF → ∀ p, step s ≠ .fault (.fetchAddressFault p))

/-- When a step faults, and with what record: the fetch, then the decoder, then the one fault of the instruction (R250, R259); the
record's pc is the instruction's address and its word the fetched one. Nothing else faults. The key index
fault is decision D19 and the order of the faults decision D22 (log 9). -/
def Obligations.StepFaultsExactlyWhenTheSpecSays : Prop :=
  ∀ (s : State) (f : Fault), step s = .fault f ↔
    (0xFFF ≤ s.pc.toNat ∧ f = .fetchAddressFault s.pc) ∨
    (s.pc.toNat < 0xFFF ∧ legalWord (s.mem.word s.pc.toNat) = false ∧
      f = .decodeFault s.pc (s.mem.word s.pc.toNat)) ∨
    (s.pc.toNat < 0xFFF ∧ ∃ i, decode (s.mem.word s.pc.toNat) = .ok i ∧
      executeFault i s s.pc (s.mem.word s.pc.toNat) f)

/-- No instruction is refused, so every step completes or reports a fault (R107). -/
def Obligations.NoStepIsRefused : Prop :=
  ∀ (i : Instr) (s : State) (r : Refusal), exec i s ≠ .refused r ∧ step s ≠ .refused r

/-- A command that reports a fault leaves the state exactly as it was (R106, R260; decision D20). -/
def Obligations.FaultedCommandChangesNothing : Prop :=
  ∀ font c s f, (runCommand font c s).2 = .fault f → (runCommand font c s).1 = s

/-- The same step repeated after a fault faults again in the same way, whatever random byte comes with it (R234, R261). -/
def Obligations.FaultedStepFaultsAgain : Prop :=
  ∀ (font : Config.Font) (r q : Byte) (s : State) (f : Fault), (runCommand font (.step r) s).2 = .fault f →
    (runCommand font (.step q) (runCommand font (.step r) s).1).2 = .fault f

/-- R110: only CXNN reads rand8, so every other instruction's step is a function of the state alone. -/
def Obligations.OnlyCxnnReadsTheRandomByte : Prop :=
  ∀ (s : State) (r q : Byte), (∀ x nn, s.fetchDecode ≠ .ok (.rnd x nn)) → stepWith r s = stepWith q s

/-- The model's own step is the step command with the free random byte (log 1: the model's choice). -/
def Obligations.StepIsTheCommandWithTheFreeByte : Prop :=
  ∀ s : State, step s = stepWith (Config.rand8 s.draws) s

/-- A word placed where the next step fetches is the one it runs, from any state (log 4: the model's own convention). -/
def Obligations.PlacedWordIsTheNextStep : Prop :=
  ∀ (s : State) (w : Word) (i : Instr), decode w = .ok i → ∃ t, s.withFetchWord 16 w.toNat = t ∧
    step t = exec i { t with pc := wrap16 (t.pc.toNat + 2) } ∧ SameBut s t [.pc, .memory] ∧
    (s.pc.toNat < 0xFFF → t.pc = s.pc) ∧ MemorySameOutside s t t.pc.toNat 2

/-! ### Control flow -/

/-- R120: the no-op changes nothing; the whole step changes pc to a + 2 and nothing else. -/
def Obligations.NopOnlyAdvancesPc : Prop :=
  (∀ s, exec .nop s = .next s) ∧
  (∀ s : State, s.pc.toNat < 0xFFF → s.mem.get s.pc.toNat = 0 → s.mem.get (s.pc.toNat + 1) = 0 →
    step s = .next { s with pc := wrap16 (s.pc.toNat + 2) })

/-- R122, R124: the jumps, and that they change pc alone. -/
def Obligations.JumpsSetPcAlone : Prop :=
  ∀ (nnn : Addr12) (s : State),
    (∃ t, exec (.jp nnn) s = .next t ∧ t.pc.toNat = nnn.toNat ∧ SameBut s t [.pc]) ∧
    (∃ t, exec (.jpV0 nnn) s = .next t ∧ t.pc.toNat = (s.getV 0).toNat + nnn.toNat ∧ SameBut s t [.pc])

/-- R123, R254: a call pushes the advanced pc and jumps, up to the 16th entry; with 16 in use it raises StackFault(overflow). -/
def Obligations.CallPushesOrOverflows : Prop :=
  ∀ (nnn : Addr12) (s : State),
    (∀ h : s.sp.val < 16, ∃ t, exec (.call nnn) s = .next t ∧ t.sp.val = s.sp.val + 1 ∧
      t.stack[s.sp.val] = s.pc ∧ (∀ k : Fin 16, k.val ≠ s.sp.val → t.stack[k] = s.stack[k]) ∧
      t.pc.toNat = nnn.toNat ∧ SameBut s t [.pc, .stack]) ∧
    (s.sp.val = 16 →
      exec (.call nnn) s = .fault (.stackFault .overflow (s.pc - 2) (wrap16 (0x2000 + nnn.toNat))))

/-- R121, R255: a return pops the top entry into pc and leaves the entry's value; on an empty stack it raises
StackFault(underflow). -/
def Obligations.RetPopsOrUnderflows : Prop :=
  ∀ s : State,
    (∀ h : 0 < s.sp.val, ∃ t, exec .ret s = .next t ∧ t.sp.val = s.sp.val - 1 ∧
      t.pc = s.stack[s.sp.val - 1]'(by omega) ∧ (∀ k : Fin 16, t.stack[k] = s.stack[k]) ∧
      SameBut s t [.pc, .stack]) ∧
    (s.sp.val = 0 → exec .ret s = .fault (.stackFault .underflow (s.pc - 2) 0x00EE))

/-- The return from a subroutine comes back to the instruction after the call, with the stack as deep as before, when the
subroutine left the stack as deep as the call did and the call's own entry as it was; every other entry may have changed, as nested
calls change those above (R121, R123, R129; R26, decision D12). -/
def Obligations.ReturnComesBackAfterTheCall : Prop :=
  ∀ (nnn : Addr12) (s t u : State), exec (.call nnn) s = .next t → u.sp = t.sp →
    (∀ k : Fin 16, k.val = s.sp.val → u.stack[k] = t.stack[k]) →
    ∃ w, exec .ret u = .next w ∧ w.pc = s.pc ∧ w.sp = s.sp

/-- R125 to R128: the register skips, each by a further 2 bytes exactly when its condition holds, changing pc alone. -/
def Obligations.RegisterSkipsMovePcBy2 : Prop :=
  ∀ (x y : Reg) (nn : Byte) (s : State),
    (∃ t, exec (.seImm x nn) s = .next t ∧ SameBut s t [.pc] ∧
      t.pc.toNat = if (s.getV x).toNat = nn.toNat then (s.pc.toNat + 2) % 65536 else s.pc.toNat) ∧
    (∃ t, exec (.sneImm x nn) s = .next t ∧ SameBut s t [.pc] ∧
      t.pc.toNat = if (s.getV x).toNat = nn.toNat then s.pc.toNat else (s.pc.toNat + 2) % 65536) ∧
    (∃ t, exec (.seReg x y) s = .next t ∧ SameBut s t [.pc] ∧
      t.pc.toNat = if (s.getV x).toNat = (s.getV y).toNat then (s.pc.toNat + 2) % 65536 else s.pc.toNat) ∧
    (∃ t, exec (.sneReg x y) s = .next t ∧ SameBut s t [.pc] ∧
      t.pc.toNat = if (s.getV x).toNat = (s.getV y).toNat then s.pc.toNat else (s.pc.toNat + 2) % 65536)

/-- A jump to its own address is a step that completes and changes nothing (R289, which the spec marks as derived). -/
def Obligations.SelfJumpIdles : Prop :=
  ∀ s : State, s.pc.toNat < 0xFFF → (s.mem.word s.pc.toNat).toNat = 0x1000 + s.pc.toNat → step s = .next s

/-! ### ALU -/

/-- R143, R144, R145: the loads and the immediate add write V[X] alone; the add wraps and sets no flag. -/
def Obligations.LoadsAndAddImmediateWriteVxAlone : Prop :=
  ∀ (x y : Reg) (nn : Byte) (s : State),
    (∃ t, exec (.ldImm x nn) s = .next t ∧ t.getV x = nn ∧ RegsSameBut s t [x] ∧ SameBut s t [.regs]) ∧
    (∃ t, exec (.addImm x nn) s = .next t ∧ (t.getV x).toNat = ((s.getV x).toNat + nn.toNat) % 256 ∧
      RegsSameBut s t [x] ∧ SameBut s t [.regs]) ∧
    (∃ t, exec (.ldReg x y) s = .next t ∧ t.getV x = s.getV y ∧ RegsSameBut s t [x] ∧ SameBut s t [.regs])

/-- The logic operations, bit by bit, write V[X] alone (R146 to R148); that VF is not written unless X = F is the spec's decision
D14. -/
def Obligations.LogicWritesVxAloneBitByBit : Prop :=
  ∀ (x y : Reg) (s : State),
    (∃ t, exec (.orReg x y) s = .next t ∧ RegsSameBut s t [x] ∧ SameBut s t [.regs] ∧
      ∀ k < 8, (t.getV x).getLsbD k = ((s.getV x).getLsbD k || (s.getV y).getLsbD k)) ∧
    (∃ t, exec (.andReg x y) s = .next t ∧ RegsSameBut s t [x] ∧ SameBut s t [.regs] ∧
      ∀ k < 8, (t.getV x).getLsbD k = ((s.getV x).getLsbD k && (s.getV y).getLsbD k)) ∧
    (∃ t, exec (.xorReg x y) s = .next t ∧ RegsSameBut s t [x] ∧ SameBut s t [.regs] ∧
      ∀ k < 8, (t.getV x).getLsbD k = ((s.getV x).getLsbD k != (s.getV y).getLsbD k))

/-- R149: the sum modulo 256 in V[X], the carry in VF, which with X = F is what is left. -/
def Obligations.AddWritesSumThenCarry : Prop :=
  ∀ (x y : Reg) (s : State), ∃ t, exec (.addReg x y) s = .next t ∧
    (x ≠ 0xF → (t.getV x).toNat = ((s.getV x).toNat + (s.getV y).toNat) % 256) ∧
    (t.getV 0xF).toNat = (if (s.getV x).toNat + (s.getV y).toNat > 255 then 1 else 0) ∧
    RegsSameBut s t [x, 0xF] ∧ SameBut s t [.regs]

/-- R150, R152: the difference modulo 256 in V[X], and in VF 0 on a borrow and else 1, which with X = F is what is left.
That equal operands give no borrow is decision D13 (R141; log 9). -/
def Obligations.SubtractsWriteDifferenceThenNoBorrow : Prop :=
  ∀ (x y : Reg) (s : State),
    (∃ t, exec (.subReg x y) s = .next t ∧
      (x ≠ 0xF → ((t.getV x).toNat : Int) = ((s.getV x).toNat - (s.getV y).toNat : Int) % 256) ∧
      (t.getV 0xF).toNat = (if (s.getV x).toNat < (s.getV y).toNat then 0 else 1) ∧
      RegsSameBut s t [x, 0xF] ∧ SameBut s t [.regs]) ∧
    (∃ t, exec (.subnReg x y) s = .next t ∧
      (x ≠ 0xF → ((t.getV x).toNat : Int) = ((s.getV y).toNat - (s.getV x).toNat : Int) % 256) ∧
      (t.getV 0xF).toNat = (if (s.getV y).toNat < (s.getV x).toNat then 0 else 1) ∧
      RegsSameBut s t [x, 0xF] ∧ SameBut s t [.regs])

/-- R151, R153: V[X] shifted by one with 0 shifted in, the bit shifted out in VF, and V[Y] not read. -/
def Obligations.ShiftsCaptureTheBitShiftedOut : Prop :=
  ∀ (x y : Reg) (s : State),
    (∃ t, exec (.shr x y) s = .next t ∧ (x ≠ 0xF → (t.getV x).toNat = (s.getV x).toNat / 2) ∧
      (t.getV 0xF).toNat = (s.getV x).toNat % 2 ∧ RegsSameBut s t [x, 0xF] ∧ SameBut s t [.regs]) ∧
    (∃ t, exec (.shl x y) s = .next t ∧ (x ≠ 0xF → (t.getV x).toNat = 2 * (s.getV x).toNat % 256) ∧
      (t.getV 0xF).toNat = (s.getV x).toNat / 128 ∧ RegsSameBut s t [x, 0xF] ∧ SameBut s t [.regs]) ∧
    (∀ z : Reg, exec (.shr x y) s = exec (.shr x z) s ∧ exec (.shl x y) s = exec (.shl x z) s)

/-- CXNN writes rand8 AND NN to V[X] alone, for every random byte the host may supply, and for the model's free one (R154; the
draw is decision D6, the count of draws log 1). -/
def Obligations.RandomWritesTheDrawMaskedForEveryDraw : Prop :=
  ∀ (x : Reg) (nn : Byte) (s : State),
    (∀ r : Byte, ∃ t, execWith r (.rnd x nn) s = .next t ∧ RegsSameBut s t [x] ∧ SameBut s t [.regs, .draws] ∧
      ∀ k < 8, (t.getV x).getLsbD k = (r.getLsbD k && nn.getLsbD k)) ∧
    (∃ t, exec (.rnd x nn) s = .next t ∧ RegsSameBut s t [x] ∧ SameBut s t [.regs, .draws] ∧
      t.draws = s.draws + 1 ∧
      ∀ k < 8, (t.getV x).getLsbD k = ((Config.rand8 s.draws).getLsbD k && nn.getLsbD k))

/-! ### Address register and memory -/

/-- R170, R172: the loads of I write I alone; FX29 multiplies the whole byte. -/
def Obligations.AddressRegisterLoads : Prop :=
  ∀ (x : Reg) (nnn : Addr12) (s : State),
    (∃ t, exec (.ldI nnn) s = .next t ∧ t.i.toNat = nnn.toNat ∧ SameBut s t [.index]) ∧
    (∃ t, exec (.ldF x) s = .next t ∧ t.i.toNat = 5 * (s.getV x).toNat ∧ SameBut s t [.index])

/-- FX1E adds V[X] to I, wrapping at 16 bits, and writes no flag (R171; decisions D10 and D14). -/
def Obligations.AddToAddressRegisterWrapsAt16Bits : Prop :=
  ∀ (x : Reg) (s : State), ∃ t, exec (.addI x) s = .next t ∧
    t.i.toNat = (s.i.toNat + (s.getV x).toNat) % 65536 ∧ SameBut s t [.index]

/-- FX33 stores the hundreds, tens and ones digits of V[X] at I, I + 1 and I + 2, and changes no other byte and nothing else,
when the three addresses are inside memory (R173; that I is unchanged is decision D15). -/
def Obligations.BcdStoresThreeDigits : Prop :=
  ∀ (x : Reg) (s : State), s.i.toNat + 2 < 4096 → ∃ t, exec (.ldB x) s = .next t ∧
    (t.mem.get s.i.toNat).toNat * 100 + (t.mem.get (s.i.toNat + 1)).toNat * 10 +
      (t.mem.get (s.i.toNat + 2)).toNat = (s.getV x).toNat ∧
    (t.mem.get s.i.toNat).toNat ≤ 2 ∧ (t.mem.get (s.i.toNat + 1)).toNat ≤ 9 ∧ (t.mem.get (s.i.toNat + 2)).toNat ≤ 9 ∧
    MemorySameOutside s t s.i.toNat 3 ∧ SameBut s t [.memory]

/-- FX55 stores V0 to VX at I upward and changes no other byte and nothing else, when the addresses are inside memory (R174; that I
is unchanged is decision D15). -/
def Obligations.StoreRegistersWritesV0ToVx : Prop :=
  ∀ (x : Reg) (s : State), s.i.toNat + x.toNat < 4096 → ∃ t, exec (.storeRegs x) s = .next t ∧
    (∀ r : Reg, r.toNat ≤ x.toNat → t.mem.get (s.i.toNat + r.toNat) = s.getV r) ∧
    MemorySameOutside s t s.i.toNat (x.toNat + 1) ∧ SameBut s t [.memory]

/-- FX65 loads V0 to VX from I upward and changes nothing else, when the addresses are inside memory (R175; that I is unchanged is
decision D15). -/
def Obligations.LoadRegistersReadsV0ToVx : Prop :=
  ∀ (x : Reg) (s : State), s.i.toNat + x.toNat < 4096 → ∃ t, exec (.loadRegs x) s = .next t ∧
    (∀ r : Reg, r.toNat ≤ x.toNat → t.getV r = s.mem.get (s.i.toNat + r.toNat)) ∧
    (∀ r : Reg, x.toNat < r.toNat → t.getV r = s.getV r) ∧ SameBut s t [.regs]

/-- FX55 and then FX65 with the same X and the same I restore V0 to VX, whatever happened in between to anything but those bytes
of memory (R174, R175, property L1-P6 of 95_test_vectors.md). -/
def Obligations.StoreThenLoadRestoresRegisters : Prop :=
  ∀ (x : Reg) (s t u : State), exec (.storeRegs x) s = .next t → u.i = s.i →
    (∀ k ≤ x.toNat, u.mem.get (s.i.toNat + k) = t.mem.get (s.i.toNat + k)) →
    ∃ w, exec (.loadRegs x) u = .next w ∧ ∀ r : Reg, r.toNat ≤ x.toNat → w.getV r = s.getV r

/-- An instruction one of whose effective addresses I + k is 4096 or more raises AddressFault(data) with the lowest such address;
one whose addresses are all inside does not, and one that accesses none cannot (R65, R66; decision D11). -/
def Obligations.DataAccessOutsideMemoryFaults : Prop :=
  ∀ (i : Instr) (s : State),
    (∀ k < dataAccesses i, 4096 ≤ s.i.toNat + k → (∀ j < k, s.i.toNat + j < 4096) →
      exec i s = .fault (.dataAddressFault (s.pc - 2) (encode i) (s.i.toNat + k))) ∧
    ((∀ k < dataAccesses i, s.i.toNat + k < 4096) →
      ∀ pc w a, exec i s ≠ .fault (.dataAddressFault pc w a))

/-- The bytes FX55, FX33 or load stores are what the next fetch reads, whether they cover both bytes of the word at pc, one of them
or none: each fetched byte is the stored one where the store covers it, and the old one elsewhere (R63, decision D28; R286; for load
R233, decision D4). -/
def Obligations.StoreIsSeenByTheNextFetch : Prop :=
  ∀ (x : Reg) (s : State), s.pc.toNat < 0xFFF →
    (∀ t, exec (.storeRegs x) s = .next t →
      FetchesAfterStore s t s.i.toNat (x.toNat + 1) fun k => (s.getV (BitVec.ofNat 4 k)).toNat) ∧
    (∀ t, exec (.ldB x) s = .next t →
      FetchesAfterStore s t s.i.toNat 3 fun k => (s.getV x).toNat / 10 ^ (2 - k) % 10) ∧
    (∀ (font : Config.Font) (bytes : List Byte) (t : State), runCommand font (.load bytes) s = (t, .ok) →
      FetchesAfterStore s t 0x200 bytes.length fun k => (bytes.getD k 0).toNat)

/-! ### Display -/

/-- R191: every pixel false and nothing else changed. -/
def Obligations.ClearScreenClearsEveryPixel : Prop :=
  ∀ s : State, ∃ t, exec .cls s = .next t ∧ (∀ x y, t.fb.pixel x y = false) ∧ SameBut s t [.display]

/-- DXYN flips exactly the pixels a 1 bit of the sprite lands on, with wraparound, writes to VF whether one of them was set, and
changes nothing else; with N = 0 it completes from any I (R192; bit 7 leftmost is PRESUMED, log 10; N = 0 is decision D17). -/
def Obligations.DrawXorsTheSpriteAndReportsCollision : Prop :=
  ∀ (x y : Reg) (n : Nibble) (s : State), n = 0 ∨ s.i.toNat + n.toNat ≤ 4096 →
    ∃ t, exec (.drw x y n) s = .next t ∧ RegsSameBut s t [0xF] ∧ SameBut s t [.regs, .display] ∧
      (∀ px py, SpriteBitAt s.mem s.i.toNat (s.getV x).toNat (s.getV y).toNat n.toNat px py →
        t.fb.pixel px py = !s.fb.pixel px py) ∧
      (∀ px py, ¬ SpriteBitAt s.mem s.i.toNat (s.getV x).toNat (s.getV y).toNat n.toNat px py →
        t.fb.pixel px py = s.fb.pixel px py) ∧
      ((t.getV 0xF = 1 ∧ ∃ px py, SpriteBitAt s.mem s.i.toNat (s.getV x).toNat (s.getV y).toNat n.toNat px py ∧
          s.fb.pixel px py = true) ∨
       (t.getV 0xF = 0 ∧ ∀ px py, SpriteBitAt s.mem s.i.toNat (s.getV x).toNat (s.getV y).toNat n.toNat px py →
          s.fb.pixel px py = false))

/-- The same sprite drawn twice at the same place restores the framebuffer; the second draw reports a collision exactly when a 1
bit of it landed on a pixel that was clear before the first (R192, C15; which pixels a bit lands on rests on bit 7 leftmost,
decision D16, PRESUMED, log 10). -/
def Obligations.DrawingTwiceRestoresTheScreen : Prop :=
  ∀ (x y : Reg) (n : Nibble) (s t u w : State), exec (.drw x y n) s = .next t →
    u.getV x = s.getV x → u.getV y = s.getV y → u.i = s.i → u.mem = s.mem → u.fb = t.fb →
    exec (.drw x y n) u = .next w →
    w.fb = s.fb ∧
    (w.getV 0xF = 1 ↔ ∃ px py, SpriteBitAt s.mem s.i.toNat (s.getV x).toNat (s.getV y).toNat n.toNat px py ∧
      s.fb.pixel px py = false)

/-- read_display gives pixel (x, y) at index y * 64 + x, changes nothing, and after 00E0 gives 2048 false values (R190, whose
linear index the spec marks as derived; R194; property L1-P5). -/
def Obligations.ReadDisplayIsRowMajorAndReadOnly : Prop :=
  (∀ (font : Config.Font) (s : State), ∃ p, runCommand font .readDisplay s = (s, .display p) ∧
    ∀ (x : Fin 64) (y : Fin 32), p[y.val * 64 + x.val]'(by omega) = s.fb.pixel x y) ∧
  (∀ (font : Config.Font) (s t : State), exec .cls s = .next t →
    (runCommand font .readDisplay t).2 = .display (Vector.replicate 2048 false))

/-! ### Keys and timers -/

/-- The key skips by the whole byte V[X]: by a further 2 bytes exactly when the key is pressed, or not pressed, changing pc alone;
above 15 they raise KeyIndexFault (R212, R213; decision D19). -/
def Obligations.KeySkipsReadTheKeyOrFault : Prop :=
  ∀ (x k : Reg) (s : State),
    ((s.getV x).toNat = k.toNat →
      (∃ t, exec (.skp x) s = .next t ∧ SameBut s t [.pc] ∧
        t.pc.toNat = if s.keyDown k = true then (s.pc.toNat + 2) % 65536 else s.pc.toNat) ∧
      (∃ t, exec (.sknp x) s = .next t ∧ SameBut s t [.pc] ∧
        t.pc.toNat = if s.keyDown k = true then s.pc.toNat else (s.pc.toNat + 2) % 65536)) ∧
    (15 < (s.getV x).toNat →
      exec (.skp x) s = .fault (.keyIndexFault (s.pc - 2) (wrap16 (0xE09E + x.toNat * 256)) (s.getV x)) ∧
      exec (.sknp x) s = .fault (.keyIndexFault (s.pc - 2) (wrap16 (0xE0A1 + x.toNat * 256)) (s.getV x)))

/-- R215: with no key pressed the whole step of FX0A completes and changes no state at all; with keys pressed it writes the lowest
index to V[X] and goes on, changing nothing else. -/
def Obligations.WaitForKeyWaitsOrTakesTheLowest : Prop :=
  ∀ (x : Reg) (s : State),
    ((∀ k, s.keyDown k = false) →
      (∃ t, exec (.ldKey x) s = .next t ∧ t.pc = s.pc - 2 ∧ SameBut s t [.pc]) ∧
      (s.pc.toNat < 0xFFF → s.mem.word s.pc.toNat = wrap16 (0xF00A + x.toNat * 256) → step s = .next s)) ∧
    (∀ k, s.keyDown k = true → (∀ j : Reg, j.toNat < k.toNat → s.keyDown j = false) →
      ∃ t, exec (.ldKey x) s = .next t ∧ (t.getV x).toNat = k.toNat ∧ RegsSameBut s t [x] ∧ SameBut s t [.regs])

/-- R214, R216, R217: the timer instructions, each with its one write. -/
def Obligations.TimerInstructionsCopyTheByte : Prop :=
  ∀ (x : Reg) (s : State),
    (∃ t, exec (.ldFromDT x) s = .next t ∧ t.getV x = s.dt ∧ RegsSameBut s t [x] ∧ SameBut s t [.regs]) ∧
    (∃ t, exec (.ldDT x) s = .next t ∧ t.dt = s.getV x ∧ SameBut s t [.delay]) ∧
    (∃ t, exec (.ldST x) s = .next t ∧ t.st = s.getV x ∧ SameBut s t [.sound])

/-! ### Host commands -/

/-- R265: a tick takes 1 from each timer that is not 0, and changes nothing else. -/
def Obligations.TickCountsEachTimerDownToZero : Prop :=
  ∀ (font : Config.Font) (s : State), ∃ t, runCommand font .tickTimers s = (t, .ok) ∧
    t.dt.toNat = s.dt.toNat - 1 ∧ t.st.toNat = s.st.toNat - 1 ∧ SameBut s t [.delay, .sound]

/-- set_key writes the one flag and nothing else, and an index outside 0 to 15 is refused with KeyArgumentError and no change
(R211, R258; decision D5; that a negative index is refused is log 7). -/
def Obligations.SetKeyWritesOneFlagOrRefuses : Prop :=
  ∀ (font : Config.Font) (index : Int) (pressed : Bool) (s : State),
    (keyIndexFits index = true → ∃ t, runCommand font (.setKey index pressed) s = (t, .ok) ∧
      (∀ k : Reg, t.keyDown k = if (k.toNat : Int) = index then pressed else s.keyDown k) ∧ SameBut s t [.keys]) ∧
    (keyIndexFits index = false →
      runCommand font (.setKey index pressed) s = (s, .fault (.keyArgumentError index)))

/-- load copies the bytes from 0x200 up and changes nothing else, for every payload that fits (R233; decision D4). -/
def Obligations.LoadCopiesTheProgramAt0x200 : Prop :=
  ∀ (font : Config.Font) (bytes : List Byte) (s : State), programFits bytes = true →
    ∃ t, runCommand font (.load bytes) s = (t, .ok) ∧
      (∀ (k : Nat) (h : k < bytes.length), t.mem.get (0x200 + k) = bytes[k]) ∧
      MemorySameOutside s t 0x200 bytes.length ∧ SameBut s t [.memory]

/-- R257: a payload longer than 3584 bytes is rejected with LoadFault, and no byte is written. -/
def Obligations.OversizeLoadIsRejectedWhole : Prop :=
  ∀ (font : Config.Font) (bytes : List Byte) (s : State), 3584 < bytes.length →
    runCommand font (.load bytes) s = (s, .fault (.loadFault bytes.length))

/-! ### Whole-machine rules: who may write what -/

/-- R111: no step changes a key, only FX15 and FX18 change DT and ST, each its own; of the other commands only tick_timers and
the resets move the timers, and only set_key and the resets the keys. -/
def Obligations.WhoMovesTheTimersAndTheKeys : Prop :=
  (∀ (r : Byte) (i : Instr) (s t : State), s.fetchDecode = .ok i → stepWith r s = .next t →
    SamePart s t .keys ∧ ((∀ x, i ≠ .ldDT x) → t.dt = s.dt) ∧ ((∀ x, i ≠ .ldST x) → t.st = s.st)) ∧
  (∀ (font : Config.Font) (c : Command) (s : State), c ≠ .init → c ≠ .reset → (∀ r, c ≠ .step r) →
    (c ≠ .tickTimers → (runCommand font c s).1.dt = s.dt ∧ (runCommand font c s).1.st = s.st) ∧
    ((∀ k p, c ≠ .setKey k p) → SamePart s (runCommand font c s).1 .keys))

/-- R195: only 00E0 and DXYN, and the reset commands, write the framebuffer. -/
def Obligations.OnlyClsDrwAndResetWriteTheFramebuffer : Prop :=
  (∀ (r : Byte) (i : Instr) (s t : State), s.fetchDecode = .ok i → stepWith r s = .next t →
    i ≠ .cls → (∀ x y n, i ≠ .drw x y n) → SamePart s t .display) ∧
  (∀ (font : Config.Font) (c : Command) (s : State), c ≠ .init → c ≠ .reset → (∀ r, c ≠ .step r) →
    SamePart s (runCommand font c s).1 .display)

/-- Only ANNN, FX1E and FX29 write I (R176; decision D15). -/
def Obligations.OnlyThreeInstructionsWriteI : Prop :=
  ∀ (r : Byte) (i : Instr) (s t : State), s.fetchDecode = .ok i → stepWith r s = .next t →
    (∀ nnn, i ≠ .ldI nnn) → (∀ x, i ≠ .addI x) → (∀ x, i ≠ .ldF x) → t.i = s.i

/-- Only 2NNN and 00EE move the stack pointer, and only 2NNN writes a stack entry (R26; the representation is decision D12). -/
def Obligations.OnlyCallAndRetMoveTheStack : Prop :=
  ∀ (r : Byte) (i : Instr) (s t : State), s.fetchDecode = .ok i → stepWith r s = .next t →
    (∀ nnn, i ≠ .call nnn) → (∀ k : Fin 16, t.stack[k] = s.stack[k]) ∧ (i ≠ .ret → t.sp = s.sp)

/-- Only FX33 and FX55 write memory, and only at I to I + 2 and at I to I + X (R51, which the spec marks as derived). -/
def Obligations.OnlyBcdAndStoreWriteMemory : Prop :=
  ∀ (r : Byte) (i : Instr) (s t : State), s.fetchDecode = .ok i → stepWith r s = .next t →
    ((∀ x, i ≠ .ldB x) → (∀ x, i ≠ .storeRegs x) → SamePart s t .memory) ∧
    (∀ x, i = .ldB x → MemorySameOutside s t s.i.toNat 3) ∧
    (∀ x, i = .storeRegs x → MemorySameOutside s t s.i.toNat (x.toNat + 1))

/-- VF is left alone by every instruction that does not write it as a flag or name it as its destination (R31, which the spec marks
as derived; decision D14). -/
def Obligations.VfKeepsItsValueOtherwise : Prop :=
  ∀ (r : Byte) (i : Instr) (s t : State), s.fetchDecode = .ok i → stepWith r s = .next t →
    writesVF i = false → t.getV 0xF = s.getV 0xF
end

