-- ==== Sys2Proof/Laws/Decode.lean ====
section
/-! SUPPORT. The fields of R71 as numbers, what the encoders of R72 put in each field, and a word rebuilt from its fields. -/

namespace Sys2Proof

theorem fieldOp_toNat (w : Word) : (fieldOp w).toNat = w.toNat / 4096 := by
  have := w.isLt
  simp [fieldOp, BitVec.extractLsb'_toNat, Nat.shiftRight_eq_div_pow]
  omega

theorem fieldX_toNat (w : Word) : (fieldX w).toNat = w.toNat / 256 % 16 := by
  simp [fieldX, BitVec.extractLsb'_toNat, Nat.shiftRight_eq_div_pow]

theorem fieldY_toNat (w : Word) : (fieldY w).toNat = w.toNat / 16 % 16 := by
  simp [fieldY, BitVec.extractLsb'_toNat, Nat.shiftRight_eq_div_pow]

theorem fieldN_toNat (w : Word) : (fieldN w).toNat = w.toNat % 16 := by
  simp [fieldN, BitVec.extractLsb'_toNat]

theorem fieldNN_toNat (w : Word) : (fieldNN w).toNat = w.toNat % 256 := by
  simp [fieldNN, BitVec.extractLsb'_toNat]

theorem fieldNNN_toNat (w : Word) : (fieldNNN w).toNat = w.toNat % 4096 := by
  simp [fieldNNN, BitVec.extractLsb'_toNat]

theorem encodeA_toNat (op : Nat) (nnn : Addr12) (h : op < 16) : (encodeA op nnn).toNat = op * 4096 + nnn.toNat := by
  have := nnn.isLt
  simp [encodeA, wrap16]
  omega

theorem encodeXI_toNat (op : Nat) (x : Reg) (nn : Byte) (h : op < 16) :
    (encodeXI op x nn).toNat = op * 4096 + x.toNat * 256 + nn.toNat := by
  have := x.isLt
  have := nn.isLt
  simp [encodeXI, wrap16]
  omega

theorem wordOfNibbles_toNat (op : Nat) (x y n : Nibble) (h : op < 16) :
    (wordOfNibbles op x y n).toNat = op * 4096 + x.toNat * 256 + y.toNat * 16 + n.toNat := by
  have := x.isLt
  have := y.isLt
  have := n.isLt
  simp [wordOfNibbles, wrap16]
  omega

theorem fieldOp_encodeA (op : Nat) (nnn : Addr12) (h : op < 16) : (fieldOp (encodeA op nnn)).toNat = op := by
  have := nnn.isLt
  rw [fieldOp_toNat, encodeA_toNat _ _ h]
  omega

theorem fieldNNN_encodeA (op : Nat) (nnn : Addr12) (h : op < 16) : fieldNNN (encodeA op nnn) = nnn := by
  apply BitVec.eq_of_toNat_eq
  have := nnn.isLt
  rw [fieldNNN_toNat, encodeA_toNat _ _ h]
  omega

theorem fieldOp_encodeXI (op : Nat) (x : Reg) (nn : Byte) (h : op < 16) :
    (fieldOp (encodeXI op x nn)).toNat = op := by
  have := x.isLt
  have := nn.isLt
  rw [fieldOp_toNat, encodeXI_toNat _ _ _ h]
  omega

theorem fieldX_encodeXI (op : Nat) (x : Reg) (nn : Byte) (h : op < 16) : fieldX (encodeXI op x nn) = x := by
  apply BitVec.eq_of_toNat_eq
  have := x.isLt
  have := nn.isLt
  rw [fieldX_toNat, encodeXI_toNat _ _ _ h]
  omega

theorem fieldNN_encodeXI (op : Nat) (x : Reg) (nn : Byte) (h : op < 16) : fieldNN (encodeXI op x nn) = nn := by
  apply BitVec.eq_of_toNat_eq
  have := x.isLt
  have := nn.isLt
  rw [fieldNN_toNat, encodeXI_toNat _ _ _ h]
  omega

theorem fieldOp_wordOfNibbles (op : Nat) (x y n : Nibble) (h : op < 16) :
    (fieldOp (wordOfNibbles op x y n)).toNat = op := by
  have := x.isLt
  have := y.isLt
  have := n.isLt
  rw [fieldOp_toNat, wordOfNibbles_toNat _ _ _ _ h]
  omega

theorem fieldX_wordOfNibbles (op : Nat) (x y n : Nibble) (h : op < 16) : fieldX (wordOfNibbles op x y n) = x := by
  apply BitVec.eq_of_toNat_eq
  have := x.isLt
  have := y.isLt
  have := n.isLt
  rw [fieldX_toNat, wordOfNibbles_toNat _ _ _ _ h]
  omega

theorem fieldY_wordOfNibbles (op : Nat) (x y n : Nibble) (h : op < 16) : fieldY (wordOfNibbles op x y n) = y := by
  apply BitVec.eq_of_toNat_eq
  have := x.isLt
  have := y.isLt
  have := n.isLt
  rw [fieldY_toNat, wordOfNibbles_toNat _ _ _ _ h]
  omega

theorem fieldN_wordOfNibbles (op : Nat) (x y n : Nibble) (h : op < 16) : fieldN (wordOfNibbles op x y n) = n := by
  apply BitVec.eq_of_toNat_eq
  have := x.isLt
  have := y.isLt
  have := n.isLt
  rw [fieldN_toNat, wordOfNibbles_toNat _ _ _ _ h]
  omega

/-! A word is rebuilt from its fields, in each of the formats of R72. -/

theorem encodeA_fields (w : Word) : encodeA (fieldOp w).toNat (fieldNNN w) = w := by
  apply BitVec.eq_of_toNat_eq
  rw [encodeA_toNat _ _ (fieldOp w).isLt, fieldOp_toNat, fieldNNN_toNat]
  omega

theorem encodeXI_fields (w : Word) : encodeXI (fieldOp w).toNat (fieldX w) (fieldNN w) = w := by
  apply BitVec.eq_of_toNat_eq
  rw [encodeXI_toNat _ _ _ (fieldOp w).isLt, fieldOp_toNat, fieldX_toNat, fieldNN_toNat]
  omega

theorem wordOfNibbles_fields (w : Word) :
    wordOfNibbles (fieldOp w).toNat (fieldX w) (fieldY w) (fieldN w) = w := by
  apply BitVec.eq_of_toNat_eq
  rw [wordOfNibbles_toNat _ _ _ _ (fieldOp w).isLt, fieldOp_toNat, fieldX_toNat, fieldY_toNat, fieldN_toNat]
  omega

/-! Bytes and words (R52). -/

theorem wordOfBytes_toNat (hi lo : Byte) : (wordOfBytes hi lo).toNat = hi.toNat * 256 + lo.toNat := by
  have := hi.isLt
  have := lo.isLt
  simp [wordOfBytes, wrap16]
  omega

theorem highByte_toNat (w : Word) : (highByte w).toNat = w.toNat / 256 := by
  have := w.isLt
  simp [highByte, BitVec.extractLsb'_toNat, Nat.shiftRight_eq_div_pow]
  omega

theorem lowByte_toNat (w : Word) : (lowByte w).toNat = w.toNat % 256 := by
  simp [lowByte, BitVec.extractLsb'_toNat]

/-- The two bytes of a word make the word again. -/
@[simp] theorem wordOfBytes_high_low (w : Word) : wordOfBytes (highByte w) (lowByte w) = w := by
  apply BitVec.eq_of_toNat_eq
  rw [wordOfBytes_toNat, highByte_toNat, lowByte_toNat]
  omega

/-! The masks of R75, by fields. -/

theorem mask_F000 (w : Word) : (w &&& 0xF000#16).toNat = w.toNat / 4096 * 4096 := by
  have h : w &&& 0xF000#16 = (w >>> 12) <<< 12 := by
    ext i hi
    rcases (by omega : i < 12 ∨ i = 12 ∨ i = 13 ∨ i = 14 ∨ i = 15) with h | rfl | rfl | rfl | rfl
    · interval_cases i <;> simp
    all_goals simp
  have := w.isLt
  rw [h]
  simp [BitVec.toNat_shiftLeft, Nat.shiftLeft_eq, Nat.shiftRight_eq_div_pow]
  omega

theorem mask_000F (w : Word) : (w &&& 0x000F#16).toNat = w.toNat % 16 := by
  rw [BitVec.toNat_and]
  exact Nat.and_two_pow_sub_one_eq_mod w.toNat 4

theorem mask_00FF (w : Word) : (w &&& 0x00FF#16).toNat = w.toNat % 256 := by
  rw [BitVec.toNat_and]
  exact Nat.and_two_pow_sub_one_eq_mod w.toNat 8

/-- A row accepts a word when the masked word is its pattern, as numbers (R75). -/
theorem OpcodeRow.accepts_iff (r : OpcodeRow) (w : Word) :
    r.accepts w = true ↔ (w &&& r.mask).toNat = r.pattern.toNat := by
  rw [OpcodeRow.accepts, beq_iff_eq, BitVec.toNat_inj]

theorem mask_FFFF (w : Word) : (w &&& 0xFFFF#16).toNat = w.toNat := by
  rw [BitVec.toNat_and]
  have := w.isLt
  exact (Nat.and_two_pow_sub_one_eq_mod w.toNat 16).trans (by omega)

theorem and_split (w a b : Word) (hab : a &&& b = 0) :
    (w &&& (a ||| b)).toNat = (w &&& a).toNat + (w &&& b).toNat := by
  have hor : w &&& (a ||| b) = (w &&& a) ||| (w &&& b) := by
    ext i hi
    simp [Bool.and_or_distrib_left]
  have hzero : (w &&& a) &&& (w &&& b) = 0 := by
    rw [show (w &&& a) &&& (w &&& b) = w &&& (a &&& b) by ext i hi; cases h : w[i] <;> simp [h], hab]
    simp
  rw [hor, ← BitVec.add_eq_or_of_and_eq_zero _ _ hzero, BitVec.toNat_add_of_and_eq_zero hzero]

theorem mask_F00F (w : Word) : (w &&& 0xF00F#16).toNat = w.toNat / 4096 * 4096 + w.toNat % 16 := by
  have := and_split w 0xF000#16 0x000F#16 (by decide)
  rw [mask_F000, mask_000F] at this
  simpa using this

theorem mask_F0FF (w : Word) : (w &&& 0xF0FF#16).toNat = w.toNat / 4096 * 4096 + w.toNat % 256 := by
  have := and_split w 0xF000#16 0x00FF#16 (by decide)
  rw [mask_F000, mask_00FF] at this
  simpa using this

end Sys2Proof
end

