-- ==== Sys2Proof/Laws/Display.lean ====
section
/-! SUPPORT. What the framebuffer operations do, pixel by pixel: the loops of R192 as one flip of each pixel a 1 bit lands on. -/

namespace Sys2Proof.Machine

@[simp] theorem Framebuffer.pixel_clear (x : Fin 64) (y : Fin 32) : Framebuffer.pixel Framebuffer.clear x y = false := by
  simp [Framebuffer.pixel, Framebuffer.clear]

theorem Framebuffer.pixel_flip (f : Framebuffer) (x x' : Fin 64) (y y' : Fin 32) :
    (f.flip x y).pixel x' y' = if x' = x ∧ y' = y then !f.pixel x y else f.pixel x' y' := by
  by_cases hy : y' = y
  · subst hy
    by_cases hx : x' = x
    · subst hx; simp [Framebuffer.pixel, Framebuffer.flip]
    · have : x.val ≠ x'.val := fun e => hx (Fin.ext e.symm)
      simp [Framebuffer.pixel, Framebuffer.flip, this, hx]
  · have : y.val ≠ y'.val := fun e => hy (Fin.ext e.symm)
    simp [Framebuffer.pixel, Framebuffer.flip, this, hy]

/-- Two framebuffers with the same pixels are the same. -/
theorem Framebuffer.eq_of_pixel_eq {f g : Framebuffer} (h : ∀ x y, f.pixel x y = g.pixel x y) : f = g := by
  apply Vector.ext
  intro y hy
  apply Vector.ext
  intro x hx
  exact h ⟨x, hx⟩ ⟨y, hy⟩

/-- From drawing d to drawing e, exactly the pixels in `on` are flipped, and the collision is kept or one of them was set. -/
def Drawing.Flipped (d e : Drawing) (on : Fin 64 → Fin 32 → Prop) : Prop :=
  (∀ x y, (on x y → e.fb.pixel x y = !d.fb.pixel x y) ∧ (¬ on x y → e.fb.pixel x y = d.fb.pixel x y)) ∧
  (e.hit = true ↔ d.hit = true ∨ ∃ x y, on x y ∧ d.fb.pixel x y = true)

theorem Drawing.Flipped.refl (d : Drawing) {on : Fin 64 → Fin 32 → Prop} (h : ∀ x y, ¬ on x y) : Drawing.Flipped d d on := by
  refine ⟨fun x y => ⟨fun hon => absurd hon (h x y), fun _ => rfl⟩, ?_⟩
  constructor
  · exact .inl
  · rintro (hd | ⟨x, y, hon, -⟩)
    · exact hd
    · exact absurd hon (h x y)

/-- Two draws of disjoint pixels one after the other flip the pixels of both. -/
theorem Drawing.Flipped.trans {d e f : Drawing} {on on' both : Fin 64 → Fin 32 → Prop} (h : Drawing.Flipped d e on)
    (h' : Drawing.Flipped e f on') (hdis : ∀ x y, on x y → ¬ on' x y) (hboth : ∀ x y, both x y ↔ on x y ∨ on' x y) :
    Drawing.Flipped d f both := by
  refine ⟨fun x y => ⟨fun hb => ?_, fun hb => ?_⟩, ?_⟩
  · rcases (hboth x y).mp hb with ho | ho
    · rw [(h'.1 x y).2 (hdis x y ho), (h.1 x y).1 ho]
    · rw [(h'.1 x y).1 ho, (h.1 x y).2 fun hn => hdis x y hn ho]
  · have : ¬ on x y ∧ ¬ on' x y := ⟨fun ho => hb ((hboth x y).mpr (.inl ho)), fun ho => hb ((hboth x y).mpr (.inr ho))⟩
    rw [(h'.1 x y).2 this.2, (h.1 x y).2 this.1]
  · rw [h'.2, h.2]
    constructor
    · rintro ((hd | ⟨x, y, ho, hp⟩) | ⟨x, y, ho, hp⟩)
      · exact .inl hd
      · exact .inr ⟨x, y, (hboth x y).mpr (.inl ho), hp⟩
      · refine .inr ⟨x, y, (hboth x y).mpr (.inr ho), ?_⟩
        rwa [(h.1 x y).2 fun hn => hdis x y hn ho] at hp
    · rintro (hd | ⟨x, y, hb, hp⟩)
      · exact .inl (.inl hd)
      · rcases (hboth x y).mp hb with ho | ho
        · exact .inl (.inr ⟨x, y, ho, hp⟩)
        · refine .inr ⟨x, y, ho, ?_⟩
          rwa [(h.1 x y).2 fun hn => hdis x y hn ho]

/-- One bit flips its own pixel, if the bit is 1. -/
theorem Drawing.flipped_bit (row : Byte) (x0 : Nat) (yy : Fin 32) (d : Drawing) (b : Nat) :
    Drawing.Flipped d (d.bit row x0 yy b)
      (fun x y => y = yy ∧ x.val = (x0 + b) % 64 ∧ row.getLsbD (7 - b) = true) := by
  by_cases hbit : row.getLsbD (7 - b) = true
  · have hcol : ∀ x : Fin 64, x.val = (x0 + b) % 64 ↔ x = column x0 b := fun x =>
      ⟨fun e => Fin.ext e, fun e => by rw [e]; rfl⟩
    simp only [Drawing.bit, hbit, if_true, hcol, and_true]
    refine ⟨fun x y => ⟨?_, ?_⟩, ?_⟩
    · rintro ⟨rfl, rfl⟩
      simp [Framebuffer.pixel_flip]
    · intro hn
      have : ¬ (x = column x0 b ∧ y = yy) := fun e => hn ⟨e.2, e.1⟩
      simp [Framebuffer.pixel_flip, this]
    · simp only [Bool.or_eq_true]
      constructor
      · rintro (h | h)
        · exact .inl h
        · exact .inr ⟨_, _, ⟨rfl, rfl⟩, h⟩
      · rintro (h | ⟨x, y, ⟨rfl, rfl⟩, h⟩)
        · exact .inl h
        · exact .inr h
  · have : d.bit row x0 yy b = d := by simp [Drawing.bit, hbit]
    rw [this]
    exact Drawing.Flipped.refl d fun x y hon => hbit hon.2.2

/-- The first k bits of a row flip their pixels. -/
theorem Drawing.flipped_bits (row : Byte) (x0 : Nat) (yy : Fin 32) (d : Drawing) (k : Nat) (hk : k ≤ 8) :
    Drawing.Flipped d ((List.range k).foldl (Drawing.bit row x0 yy) d) (fun x y => y = yy ∧ RowBitAt row x0 k x) := by
  induction k with
  | zero => exact Drawing.Flipped.refl d fun x y ⟨_, b, hb, _⟩ => absurd hb (Nat.not_lt_zero b)
  | succ k ih =>
    rw [List.range_succ, List.foldl_append]
    refine (ih (by omega)).trans (Drawing.flipped_bit row x0 yy _ k) ?_ ?_
    · rintro x y ⟨-, b, hb, hx, -⟩ ⟨-, hx', -⟩
      omega
    · intro x y
      constructor
      · rintro ⟨hy, b, hb, hx, hbit⟩
        rcases Nat.lt_succ_iff_lt_or_eq.mp hb with h | rfl
        · exact .inl ⟨hy, b, h, hx, hbit⟩
        · exact .inr ⟨hy, hx, hbit⟩
      · rintro (⟨hy, b, hb, hx, hbit⟩ | ⟨hy, hx, hbit⟩)
        · exact ⟨hy, b, by omega, hx, hbit⟩
        · exact ⟨hy, k, by omega, hx, hbit⟩

/-- One sprite row. -/
theorem Drawing.flipped_row (row : Byte) (x0 : Nat) (yy : Fin 32) (d : Drawing) :
    Drawing.Flipped d (d.row row x0 yy) (fun x y => y = yy ∧ RowBitAt row x0 8 x) :=
  Drawing.flipped_bits row x0 yy d 8 (Nat.le_refl 8)

/-- A sprite of at most 32 rows flips exactly the pixels a 1 bit of it lands on, once each (R192). -/
theorem Drawing.flipped_sprite (m : Memory) (base x0 y0 : Nat) (d : Drawing) (n : Nat) (hn : n ≤ 32) :
    Drawing.Flipped d (d.sprite m base x0 y0 n) (SpriteBitAt m base x0 y0 n) := by
  induction n with
  | zero => exact Drawing.Flipped.refl d fun x y ⟨r, hr, _⟩ => absurd hr (Nat.not_lt_zero r)
  | succ n ih =>
    have hrow : ∀ y : Fin 32, y = rowOf y0 n ↔ y.val = (y0 + n) % 32 := fun y =>
      ⟨fun e => by rw [e]; rfl, fun e => Fin.ext e⟩
    refine (ih (by omega)).trans (Drawing.flipped_row (m.get (base + n)) x0 (rowOf y0 n) _) ?_ ?_
    · rintro x y ⟨r, hr, hy, -⟩ ⟨hy', -⟩
      have := (hrow y).mp hy'
      omega
    · intro x y
      rw [hrow]
      constructor
      · rintro ⟨r, hr, hy, hbit⟩
        rcases Nat.lt_succ_iff_lt_or_eq.mp hr with h | rfl
        · exact .inl ⟨r, h, hy, hbit⟩
        · exact .inr ⟨hy, hbit⟩
      · rintro (⟨r, hr, hy, hbit⟩ | ⟨hy, hbit⟩)
        · exact ⟨r, by omega, hy, hbit⟩
        · exact ⟨n, by omega, hy, hbit⟩

end Sys2Proof.Machine
end

