-- ==== Sys2Proof/Laws/Memory.lean ====
section
/-! SUPPORT. What the memory operations do: read after write, everything else unchanged, the canonical form kept, and equal
reads mean equal memories. -/

namespace Sys2Proof.Machine

@[simp] theorem Memory.get_nil (a : Nat) : Memory.get [] a = Memory.initialByte a := rfl

theorem Memory.get_erase_same (m : Memory) (a : Nat) : (m.erase a).get a = Memory.initialByte a := by
  induction m with
  | nil => rfl
  | cons c rest ih =>
    by_cases h : c.1 = a
    · simpa [Memory.erase, h] using ih
    · have h' : ¬ a = c.1 := fun e => h e.symm
      simpa [Memory.erase, h, h', Memory.get] using ih

theorem Memory.get_erase_other (m : Memory) {a b : Nat} (h : b ≠ a) : (m.erase a).get b = m.get b := by
  induction m with
  | nil => rfl
  | cons c rest ih =>
    obtain ⟨k, w⟩ := c
    by_cases hk : k = a
    · subst hk
      simpa [Memory.erase, Memory.get, h] using ih
    · by_cases hb : b = k
      · simp [Memory.erase, hk, Memory.get, hb]
      · simpa [Memory.erase, hk, Memory.get, hb] using ih

theorem Memory.get_insertCell (m : Memory) (a b : Nat) (w : Byte) (hm : ∀ c ∈ m, c.1 ≠ a) :
    (m.insertCell a w).get b = if b = a then w else m.get b := by
  induction m with
  | nil => simp [Memory.insertCell, Memory.get]
  | cons c rest ih =>
    obtain ⟨k, u⟩ := c
    have hk : k ≠ a := hm (k, u) (by simp)
    have ih := ih fun c hc => hm c (by simp [hc])
    by_cases hlt : a < k
    · simp [Memory.insertCell, hlt, Memory.get]
    · simp only [Memory.insertCell, hlt, if_false, Memory.get, ih]
      by_cases hb : b = k
      · subst hb; simp [hk]
      · simp [hb]

theorem Memory.erase_ne (m : Memory) (a : Nat) : ∀ c ∈ m.erase a, c.1 ≠ a := by
  intro c hc
  simpa using (List.mem_filter.mp hc).2

/-- What a write does to every read, for any memory (R55). -/
theorem Memory.get_put (m : Memory) (a b : Nat) (w : Byte) (ha : a < Config.memSize) :
    (m.put a w).get b = if b = a then w else m.get b := by
  unfold Memory.put
  rw [if_pos ha]
  by_cases hw : w = Memory.initialByte a
  · rw [if_pos hw]
    by_cases hb : b = a
    · subst hb; simp [Memory.get_erase_same, hw]
    · simp [Memory.get_erase_other m hb, hb]
  · rw [if_neg hw, Memory.get_insertCell _ _ _ _ (Memory.erase_ne m a)]
    by_cases hb : b = a
    · simp [hb]
    · simp [hb, Memory.get_erase_other m hb]

/-- A write leaves every other address alone, wherever it goes. -/
theorem Memory.get_put_other (m : Memory) {a b : Nat} (w : Byte) (h : b ≠ a) : (m.put a w).get b = m.get b := by
  by_cases ha : a < Config.memSize
  · rw [Memory.get_put m a b w ha, if_neg h]
  · rw [Memory.put, if_neg ha]

/-- A run of byte stores leaves every address outside its range alone. -/
theorem Memory.get_putBytes_outside (bs : List Byte) (m : Memory) (base a : Nat)
    (h : a < base ∨ base + bs.length ≤ a) : (m.putBytes base bs).get a = m.get a := by
  induction bs generalizing m base with
  | nil => rfl
  | cons w ws ih =>
    simp only [List.length_cons] at h
    rw [Memory.putBytes, ih (m.put base w) (base + 1) (by omega), Memory.get_put_other m w (by omega)]

/-- A run of byte stores leaves byte k of the list at base + k. -/
theorem Memory.get_putBytes_inside (bs : List Byte) (m : Memory) (base k : Nat) (hk : k < bs.length)
    (hfit : base + bs.length ≤ Config.memSize) : (m.putBytes base bs).get (base + k) = bs[k] := by
  induction bs generalizing m base k with
  | nil => simp at hk
  | cons w ws ih =>
    simp only [List.length_cons] at hk hfit
    cases k with
    | zero =>
      rw [Memory.putBytes, Memory.get_putBytes_outside ws _ _ _ (by omega), Memory.get_put m base _ w (by omega)]
      simp
    | succ k =>
      have := ih (m.put base w) (base + 1) k (by omega) (by omega)
      rw [Memory.putBytes, show base + (k + 1) = base + 1 + k by omega, this]
      simp

theorem Memory.wf_nil : Memory.wf [] := by simp [Memory.wf]

theorem Memory.wf_erase {m : Memory} (h : m.wf) (a : Nat) : (m.erase a).wf :=
  ⟨h.1.filter _, fun c hc => h.2 c (List.mem_filter.mp hc).1⟩

theorem Memory.mem_insertCell {m : Memory} {a : Nat} {w : Byte} {c : Host.Cell} (hc : c ∈ m.insertCell a w) :
    c = (a, w) ∨ c ∈ m := by
  induction m with
  | nil => simpa [Memory.insertCell] using hc
  | cons d rest ih =>
    obtain ⟨k, u⟩ := d
    by_cases hlt : a < k
    · simpa [Memory.insertCell, hlt] using hc
    · simp only [Memory.insertCell, hlt, if_false, List.mem_cons] at hc ⊢
      rcases hc with hc | hc
      · exact .inr (.inl hc)
      · rcases ih hc with h | h
        · exact .inl h
        · exact .inr (.inr h)

theorem Memory.wf_insertCell {m : Memory} (h : m.wf) {a : Nat} {w : Byte} (ha : a < Config.memSize)
    (hw : w ≠ Memory.initialByte a) (hne : ∀ c ∈ m, c.1 ≠ a) : (m.insertCell a w).wf := by
  refine ⟨?_, fun c hc => ?_⟩
  · obtain ⟨hp, -⟩ := h
    induction m with
    | nil => simp [Memory.insertCell]
    | cons d rest ih =>
      obtain ⟨k, u⟩ := d
      rw [List.pairwise_cons] at hp
      have hk : k ≠ a := hne (k, u) (by simp)
      by_cases hlt : a < k
      · simp only [Memory.insertCell, hlt, if_true, List.pairwise_cons]
        refine ⟨fun c hc => ?_, hp.1, hp.2⟩
        rcases List.mem_cons.mp hc with rfl | hc
        · exact hlt
        · exact Nat.lt_trans hlt (hp.1 c hc)
      · simp only [Memory.insertCell, hlt, if_false, List.pairwise_cons]
        refine ⟨fun c hc => ?_, ih (fun c hc => hne c (by simp [hc])) hp.2⟩
        rcases Memory.mem_insertCell hc with rfl | hc
        · show k < a
          omega
        · exact hp.1 c hc
  · rcases Memory.mem_insertCell hc with rfl | hc
    · exact ⟨ha, hw⟩
    · exact h.2 c hc

/-- Every write keeps the canonical form. -/
theorem Memory.wf_put {m : Memory} (h : m.wf) (a : Nat) (w : Byte) : (m.put a w).wf := by
  unfold Memory.put
  split
  · next ha =>
    split
    · exact Memory.wf_erase h a
    · next hw => exact Memory.wf_insertCell (Memory.wf_erase h a) ha hw (Memory.erase_ne m a)
  · exact h

/-- A run of byte stores keeps the canonical form. -/
theorem Memory.wf_putBytes {m : Memory} (h : m.wf) (base : Nat) (bs : List Byte) : (m.putBytes base bs).wf := by
  induction bs generalizing m base with
  | nil => exact h
  | cons w ws ih => exact ih (Memory.wf_put h base w) (base + 1)

/-- A canonical memory whose addresses are all above a reads the reset contents at a. -/
theorem Memory.get_of_above {m : Memory} {a : Nat} (h : ∀ c ∈ m, a < c.1) : m.get a = Memory.initialByte a := by
  induction m with
  | nil => rfl
  | cons c rest ih =>
    have hc := h c (by simp)
    rw [Memory.get, if_neg (by omega)]
    exact ih fun d hd => h d (by simp [hd])

/-- Canonical memories that read the same at every address are the same. -/
theorem Memory.eq_of_get_eq {m n : Memory} (hm : m.wf) (hn : n.wf) (h : ∀ a, m.get a = n.get a) : m = n := by
  induction m generalizing n with
  | nil =>
    cases n with
    | nil => rfl
    | cons d n =>
      have := h d.1
      simp only [Memory.get, if_true] at this
      exact absurd this.symm (hn.2 d (by simp)).2
  | cons c m ih =>
    have hcm := (List.pairwise_cons.mp hm.1).1
    cases n with
    | nil =>
      have := h c.1
      simp only [Memory.get, if_true] at this
      exact absurd this (hm.2 c (by simp)).2
    | cons d n =>
      have hdn := (List.pairwise_cons.mp hn.1).1
      have key : c.1 = d.1 := by
        rcases Nat.lt_trichotomy c.1 d.1 with hlt | heq | hgt
        · have h1 := h c.1
          rw [Memory.get_of_above (m := d :: n) (a := c.1)] at h1
          · exact absurd (by simpa [Memory.get] using h1) (hm.2 c (by simp)).2
          · intro e he
            rcases List.mem_cons.mp he with rfl | he
            · exact hlt
            · exact Nat.lt_trans hlt (hdn e he)
        · exact heq
        · have h1 := h d.1
          rw [Memory.get_of_above (m := c :: m) (a := d.1)] at h1
          · exact absurd (by simpa [Memory.get] using h1.symm) (hn.2 d (by simp)).2
          · intro e he
            rcases List.mem_cons.mp he with rfl | he
            · exact hgt
            · exact Nat.lt_trans hgt (hcm e he)
      have hw : c.2 = d.2 := by
        have := h c.1
        simpa [Memory.get, key] using this
      have hcd : c = d := Prod.ext key hw
      subst hcd
      congr 1
      refine ih ⟨(List.pairwise_cons.mp hm.1).2, fun e he => hm.2 e (by simp [he])⟩
        ⟨(List.pairwise_cons.mp hn.1).2, fun e he => hn.2 e (by simp [he])⟩ fun a => ?_
      by_cases ha : a = c.1
      · subst ha
        rw [Memory.get_of_above hcm, Memory.get_of_above hdn]
      · have := h a
        simpa [Memory.get, ha] using this

end Sys2Proof.Machine
end

