-- ==== Sys2Proof/Laws/State.lean ====
section
/-! SUPPORT. One lemma per field per update of State, and the accessors over each update. -/

namespace Sys2Proof.Machine

variable (s : State)

/-! setV -/

@[simp] theorem State.setV_v (x : Reg) (w : Byte) : (s.setV x w).v = s.v.set x.toNat w x.isLt := rfl
@[simp] theorem State.setV_pc (x : Reg) (w : Byte) : (s.setV x w).pc = s.pc := rfl
@[simp] theorem State.setV_i (x : Reg) (w : Byte) : (s.setV x w).i = s.i := rfl
@[simp] theorem State.setV_sp (x : Reg) (w : Byte) : (s.setV x w).sp = s.sp := rfl
@[simp] theorem State.setV_stack (x : Reg) (w : Byte) : (s.setV x w).stack = s.stack := rfl
@[simp] theorem State.setV_dt (x : Reg) (w : Byte) : (s.setV x w).dt = s.dt := rfl
@[simp] theorem State.setV_st (x : Reg) (w : Byte) : (s.setV x w).st = s.st := rfl
@[simp] theorem State.setV_fb (x : Reg) (w : Byte) : (s.setV x w).fb = s.fb := rfl
@[simp] theorem State.setV_key (x : Reg) (w : Byte) : (s.setV x w).key = s.key := rfl
@[simp] theorem State.setV_mem (x : Reg) (w : Byte) : (s.setV x w).mem = s.mem := rfl
@[simp] theorem State.setV_draws (x : Reg) (w : Byte) : (s.setV x w).draws = s.draws := rfl
@[simp] theorem State.keyDown_setV (x : Reg) (w : Byte) (k : Reg) : (s.setV x w).keyDown k = s.keyDown k := rfl

/-! setPc -/

@[simp] theorem State.setPc_v (t : Word) : (s.setPc t).v = s.v := rfl
@[simp] theorem State.setPc_pc (t : Word) : (s.setPc t).pc = t := rfl
@[simp] theorem State.setPc_i (t : Word) : (s.setPc t).i = s.i := rfl
@[simp] theorem State.setPc_sp (t : Word) : (s.setPc t).sp = s.sp := rfl
@[simp] theorem State.setPc_stack (t : Word) : (s.setPc t).stack = s.stack := rfl
@[simp] theorem State.setPc_dt (t : Word) : (s.setPc t).dt = s.dt := rfl
@[simp] theorem State.setPc_st (t : Word) : (s.setPc t).st = s.st := rfl
@[simp] theorem State.setPc_fb (t : Word) : (s.setPc t).fb = s.fb := rfl
@[simp] theorem State.setPc_key (t : Word) : (s.setPc t).key = s.key := rfl
@[simp] theorem State.setPc_mem (t : Word) : (s.setPc t).mem = s.mem := rfl
@[simp] theorem State.setPc_draws (t : Word) : (s.setPc t).draws = s.draws := rfl
@[simp] theorem State.getV_setPc (t : Word) (r : Reg) : (s.setPc t).getV r = s.getV r := rfl
@[simp] theorem State.keyDown_setPc (t : Word) (k : Reg) : (s.setPc t).keyDown k = s.keyDown k := rfl

/-! setI -/

@[simp] theorem State.setI_v (t : Word) : (s.setI t).v = s.v := rfl
@[simp] theorem State.setI_pc (t : Word) : (s.setI t).pc = s.pc := rfl
@[simp] theorem State.setI_i (t : Word) : (s.setI t).i = t := rfl
@[simp] theorem State.setI_sp (t : Word) : (s.setI t).sp = s.sp := rfl
@[simp] theorem State.setI_stack (t : Word) : (s.setI t).stack = s.stack := rfl
@[simp] theorem State.setI_dt (t : Word) : (s.setI t).dt = s.dt := rfl
@[simp] theorem State.setI_st (t : Word) : (s.setI t).st = s.st := rfl
@[simp] theorem State.setI_fb (t : Word) : (s.setI t).fb = s.fb := rfl
@[simp] theorem State.setI_key (t : Word) : (s.setI t).key = s.key := rfl
@[simp] theorem State.setI_mem (t : Word) : (s.setI t).mem = s.mem := rfl
@[simp] theorem State.setI_draws (t : Word) : (s.setI t).draws = s.draws := rfl
@[simp] theorem State.getV_setI (t : Word) (r : Reg) : (s.setI t).getV r = s.getV r := rfl
@[simp] theorem State.keyDown_setI (t : Word) (k : Reg) : (s.setI t).keyDown k = s.keyDown k := rfl

/-! setDT -/

@[simp] theorem State.setDT_v (t : Byte) : (s.setDT t).v = s.v := rfl
@[simp] theorem State.setDT_pc (t : Byte) : (s.setDT t).pc = s.pc := rfl
@[simp] theorem State.setDT_i (t : Byte) : (s.setDT t).i = s.i := rfl
@[simp] theorem State.setDT_sp (t : Byte) : (s.setDT t).sp = s.sp := rfl
@[simp] theorem State.setDT_stack (t : Byte) : (s.setDT t).stack = s.stack := rfl
@[simp] theorem State.setDT_dt (t : Byte) : (s.setDT t).dt = t := rfl
@[simp] theorem State.setDT_st (t : Byte) : (s.setDT t).st = s.st := rfl
@[simp] theorem State.setDT_fb (t : Byte) : (s.setDT t).fb = s.fb := rfl
@[simp] theorem State.setDT_key (t : Byte) : (s.setDT t).key = s.key := rfl
@[simp] theorem State.setDT_mem (t : Byte) : (s.setDT t).mem = s.mem := rfl
@[simp] theorem State.setDT_draws (t : Byte) : (s.setDT t).draws = s.draws := rfl
@[simp] theorem State.getV_setDT (t : Byte) (r : Reg) : (s.setDT t).getV r = s.getV r := rfl
@[simp] theorem State.keyDown_setDT (t : Byte) (k : Reg) : (s.setDT t).keyDown k = s.keyDown k := rfl

/-! setST -/

@[simp] theorem State.setST_v (t : Byte) : (s.setST t).v = s.v := rfl
@[simp] theorem State.setST_pc (t : Byte) : (s.setST t).pc = s.pc := rfl
@[simp] theorem State.setST_i (t : Byte) : (s.setST t).i = s.i := rfl
@[simp] theorem State.setST_sp (t : Byte) : (s.setST t).sp = s.sp := rfl
@[simp] theorem State.setST_stack (t : Byte) : (s.setST t).stack = s.stack := rfl
@[simp] theorem State.setST_dt (t : Byte) : (s.setST t).dt = s.dt := rfl
@[simp] theorem State.setST_st (t : Byte) : (s.setST t).st = t := rfl
@[simp] theorem State.setST_fb (t : Byte) : (s.setST t).fb = s.fb := rfl
@[simp] theorem State.setST_key (t : Byte) : (s.setST t).key = s.key := rfl
@[simp] theorem State.setST_mem (t : Byte) : (s.setST t).mem = s.mem := rfl
@[simp] theorem State.setST_draws (t : Byte) : (s.setST t).draws = s.draws := rfl
@[simp] theorem State.getV_setST (t : Byte) (r : Reg) : (s.setST t).getV r = s.getV r := rfl
@[simp] theorem State.keyDown_setST (t : Byte) (k : Reg) : (s.setST t).keyDown k = s.keyDown k := rfl

/-! setFb -/

@[simp] theorem State.setFb_v (f : Framebuffer) : (s.setFb f).v = s.v := rfl
@[simp] theorem State.setFb_pc (f : Framebuffer) : (s.setFb f).pc = s.pc := rfl
@[simp] theorem State.setFb_i (f : Framebuffer) : (s.setFb f).i = s.i := rfl
@[simp] theorem State.setFb_sp (f : Framebuffer) : (s.setFb f).sp = s.sp := rfl
@[simp] theorem State.setFb_stack (f : Framebuffer) : (s.setFb f).stack = s.stack := rfl
@[simp] theorem State.setFb_dt (f : Framebuffer) : (s.setFb f).dt = s.dt := rfl
@[simp] theorem State.setFb_st (f : Framebuffer) : (s.setFb f).st = s.st := rfl
@[simp] theorem State.setFb_fb (f : Framebuffer) : (s.setFb f).fb = f := rfl
@[simp] theorem State.setFb_key (f : Framebuffer) : (s.setFb f).key = s.key := rfl
@[simp] theorem State.setFb_mem (f : Framebuffer) : (s.setFb f).mem = s.mem := rfl
@[simp] theorem State.setFb_draws (f : Framebuffer) : (s.setFb f).draws = s.draws := rfl
@[simp] theorem State.getV_setFb (f : Framebuffer) (r : Reg) : (s.setFb f).getV r = s.getV r := rfl
@[simp] theorem State.keyDown_setFb (f : Framebuffer) (k : Reg) : (s.setFb f).keyDown k = s.keyDown k := rfl

/-! setMem -/

@[simp] theorem State.setMem_v (m : Memory) : (s.setMem m).v = s.v := rfl
@[simp] theorem State.setMem_pc (m : Memory) : (s.setMem m).pc = s.pc := rfl
@[simp] theorem State.setMem_i (m : Memory) : (s.setMem m).i = s.i := rfl
@[simp] theorem State.setMem_sp (m : Memory) : (s.setMem m).sp = s.sp := rfl
@[simp] theorem State.setMem_stack (m : Memory) : (s.setMem m).stack = s.stack := rfl
@[simp] theorem State.setMem_dt (m : Memory) : (s.setMem m).dt = s.dt := rfl
@[simp] theorem State.setMem_st (m : Memory) : (s.setMem m).st = s.st := rfl
@[simp] theorem State.setMem_fb (m : Memory) : (s.setMem m).fb = s.fb := rfl
@[simp] theorem State.setMem_key (m : Memory) : (s.setMem m).key = s.key := rfl
@[simp] theorem State.setMem_mem (m : Memory) : (s.setMem m).mem = m := rfl
@[simp] theorem State.setMem_draws (m : Memory) : (s.setMem m).draws = s.draws := rfl
@[simp] theorem State.getV_setMem (m : Memory) (r : Reg) : (s.setMem m).getV r = s.getV r := rfl
@[simp] theorem State.keyDown_setMem (m : Memory) (k : Reg) : (s.setMem m).keyDown k = s.keyDown k := rfl

/-! consumeDraw -/

@[simp] theorem State.consumeDraw_v : s.consumeDraw.v = s.v := rfl
@[simp] theorem State.consumeDraw_pc : s.consumeDraw.pc = s.pc := rfl
@[simp] theorem State.consumeDraw_i : s.consumeDraw.i = s.i := rfl
@[simp] theorem State.consumeDraw_sp : s.consumeDraw.sp = s.sp := rfl
@[simp] theorem State.consumeDraw_stack : s.consumeDraw.stack = s.stack := rfl
@[simp] theorem State.consumeDraw_dt : s.consumeDraw.dt = s.dt := rfl
@[simp] theorem State.consumeDraw_st : s.consumeDraw.st = s.st := rfl
@[simp] theorem State.consumeDraw_fb : s.consumeDraw.fb = s.fb := rfl
@[simp] theorem State.consumeDraw_key : s.consumeDraw.key = s.key := rfl
@[simp] theorem State.consumeDraw_mem : s.consumeDraw.mem = s.mem := rfl
@[simp] theorem State.consumeDraw_draws : s.consumeDraw.draws = s.draws + 1 := rfl
@[simp] theorem State.getV_consumeDraw (r : Reg) : s.consumeDraw.getV r = s.getV r := rfl
@[simp] theorem State.keyDown_consumeDraw (k : Reg) : s.consumeDraw.keyDown k = s.keyDown k := rfl

/-! the fetch's advance -/

theorem State.advance_eq : s.advance = s.setPc (s.pc + 2) := rfl

/-- The executing instruction's address is the pc its fetch found (R103). -/
@[simp] theorem State.insnAddr_advance : s.advance.insnAddr = s.pc := by
  simp [State.insnAddr, State.advance]

/-! registers -/

@[simp] theorem State.getV_setV_same (x : Reg) (w : Byte) : (s.setV x w).getV x = w := by
  simp [State.getV, State.setV]

@[simp] theorem State.getV_setV_other {x r : Reg} (w : Byte) (h : r ≠ x) : (s.setV x w).getV r = s.getV r := by
  have hne : x.toNat ≠ r.toNat := fun e => h (BitVec.eq_of_toNat_eq e.symm)
  simp [State.getV, State.setV, hne]

theorem State.getV_setV (x r : Reg) (w : Byte) :
    (s.setV x w).getV r = if r = x then w else s.getV r := by
  by_cases h : r = x
  · subst h; simp
  · simp [h]

/-! skips -/

theorem State.skipIf_eq (c : Bool) : s.skipIf c = s.setPc (if c then s.pc + 2 else s.pc) := by
  cases c <;> rfl

@[simp] theorem State.skipIf_v (c : Bool) : (s.skipIf c).v = s.v := by cases c <;> rfl
@[simp] theorem State.skipIf_i (c : Bool) : (s.skipIf c).i = s.i := by cases c <;> rfl
@[simp] theorem State.skipIf_sp (c : Bool) : (s.skipIf c).sp = s.sp := by cases c <;> rfl
@[simp] theorem State.skipIf_stack (c : Bool) : (s.skipIf c).stack = s.stack := by cases c <;> rfl
@[simp] theorem State.skipIf_dt (c : Bool) : (s.skipIf c).dt = s.dt := by cases c <;> rfl
@[simp] theorem State.skipIf_st (c : Bool) : (s.skipIf c).st = s.st := by cases c <;> rfl
@[simp] theorem State.skipIf_fb (c : Bool) : (s.skipIf c).fb = s.fb := by cases c <;> rfl
@[simp] theorem State.skipIf_key (c : Bool) : (s.skipIf c).key = s.key := by cases c <;> rfl
@[simp] theorem State.skipIf_mem (c : Bool) : (s.skipIf c).mem = s.mem := by cases c <;> rfl
@[simp] theorem State.skipIf_draws (c : Bool) : (s.skipIf c).draws = s.draws := by cases c <;> rfl
@[simp] theorem State.skipIf_pc (c : Bool) : (s.skipIf c).pc = if c then s.pc + 2 else s.pc := by cases c <;> rfl
@[simp] theorem State.getV_skipIf (c : Bool) (r : Reg) : (s.skipIf c).getV r = s.getV r := by cases c <;> rfl
@[simp] theorem State.keyDown_skipIf (c : Bool) (k : Reg) : (s.skipIf c).keyDown k = s.keyDown k := by cases c <;> rfl

end Sys2Proof.Machine
end

