-- ==== Sys2Proof/Laws/Ops.lean ====
section
/-! SUPPORT. What the shared operations over the stack, the registers, the keys and the operands can do. -/

namespace Sys2Proof.Machine

/-! ### The stack pointer controller -/

theorem State.push_of_lt (s : State) (w : Word) (h : s.sp.val < 16) :
    s.push w = some { s with stack := s.stack.set s.sp.val w h, sp := ⟨s.sp.val + 1, by omega⟩ } := by
  simp [State.push, h]

theorem State.push_of_full (s : State) (w : Word) (h : s.sp.val = 16) : s.push w = none := by
  simp [State.push, h]

theorem State.pop_of_pos (s : State) (h : 0 < s.sp.val) :
    s.pop = some (s.stack[s.sp.val - 1]'(by omega), { s with sp := ⟨s.sp.val - 1, by omega⟩ }) := by
  simp [State.pop, Nat.ne_of_gt h]

theorem State.pop_of_empty (s : State) (h : s.sp.val = 0) : s.pop = none := by
  simp [State.pop, h]

/-! ### Register transfers -/

/-- A register load changes registers only. -/
theorem State.loadV_eq (s : State) (base k : Nat) : s.loadV base k = { s with v := (s.loadV base k).v } := by
  induction k with
  | zero => rfl
  | succ k ih => rw [State.loadV, ih]; rfl

/-- A register load of V0 to Vk takes register r from base + r, for r up to k, and leaves the others. -/
theorem State.getV_loadV (s : State) (base k : Nat) (hk : k < 16) (r : Reg) :
    (s.loadV base k).getV r = if r.toNat ≤ k then s.mem.get (base + r.toNat) else s.getV r := by
  induction k with
  | zero =>
    rw [State.loadV, State.getV_setV]
    by_cases h : r = 0
    · subst h; simp
    · have : r.toNat ≠ 0 := fun e => h (BitVec.eq_of_toNat_eq e)
      rw [if_neg h, if_neg (by omega)]
  | succ k ih =>
    rw [State.loadV, State.getV_setV, ih (by omega)]
    have hn : (BitVec.ofNat 4 (k + 1)).toNat = k + 1 := by
      rw [BitVec.toNat_ofNat]; omega
    by_cases h : r = BitVec.ofNat 4 (k + 1)
    · rw [if_pos h, if_pos (by rw [h, hn]), h, hn]
    · have : r.toNat ≠ k + 1 := fun e => h (BitVec.eq_of_toNat_eq (by rw [e, hn]))
      rw [if_neg h]
      by_cases h2 : r.toNat ≤ k
      · rw [if_pos h2, if_pos (by omega)]
      · rw [if_neg h2, if_neg (by omega)]

@[simp] theorem State.length_regsUpTo (s : State) (x : Reg) : (s.regsUpTo x).length = x.toNat + 1 := by
  simp [State.regsUpTo]

theorem State.getElem_regsUpTo (s : State) (x : Reg) (k : Nat) (h : k < (s.regsUpTo x).length) :
    (s.regsUpTo x)[k] = s.getV (BitVec.ofNat 4 k) := by
  simp [State.regsUpTo]

/-! ### Keys -/

theorem keyIndices_mem (k : Reg) : k ∈ keyIndices := by
  revert k
  decide

theorem keyIndices_sorted : keyIndices.Pairwise (fun j k => j.toNat < k.toNat) := by decide

/-- No key is pressed. -/
theorem State.lowestKey_none (s : State) : s.lowestKey = none ↔ ∀ k, s.keyDown k = false := by
  simp [State.lowestKey, keyIndices_mem]

/-- The least element of a sorted list that a test accepts is what find? gives. -/
theorem find?_sorted {l : List Reg} (hl : l.Pairwise (fun j k => j.toNat < k.toNat)) {p : Reg → Bool} {k : Reg}
    (h : l.find? p = some k) : p k = true ∧ ∀ j ∈ l, p j = true → k.toNat ≤ j.toNat := by
  refine ⟨List.find?_some h, fun j hj hp => ?_⟩
  induction l with
  | nil => simp at h
  | cons c rest ih =>
    rw [List.pairwise_cons] at hl
    by_cases hc : p c = true
    · have : c = k := by simpa [hc] using h
      subst this
      rcases List.mem_cons.mp hj with rfl | hj
      · exact Nat.le_refl _
      · exact Nat.le_of_lt (hl.1 j hj)
    · have hrest : rest.find? p = some k := by simpa [hc] using h
      rcases List.mem_cons.mp hj with rfl | hj
      · exact absurd hp hc
      · exact ih hl.2 hrest hj

/-- The lowest pressed key is pressed, and no lower one is (R215). -/
theorem State.lowestKey_some {s : State} {k : Reg} (h : s.lowestKey = some k) :
    s.keyDown k = true ∧ ∀ j, s.keyDown j = true → k.toNat ≤ j.toNat := by
  have := find?_sorted keyIndices_sorted h
  exact ⟨this.1, fun j => this.2 j (keyIndices_mem j)⟩

/-! ### Operand checks -/

theorem State.outOfBounds_none (s : State) (n : Nat) (h : n = 0 ∨ s.i.toNat + n ≤ 4096) : s.outOfBounds n = none := by
  rw [State.outOfBounds, if_neg]
  show ¬ (0 < n ∧ 4096 ≤ s.i.toNat + (n - 1))
  omega

theorem State.outOfBounds_some (s : State) (n : Nat) (h : 0 < n) (h' : 4096 < s.i.toNat + n) :
    s.outOfBounds n = some (max s.i.toNat 4096) := by
  rw [State.outOfBounds, if_pos]
  show 0 < n ∧ 4096 ≤ s.i.toNat + (n - 1)
  omega

theorem State.checkData_pass (s : State) (i : Instr) (n : Nat) (k : Result) (h : n = 0 ∨ s.i.toNat + n ≤ 4096) :
    s.checkData i n k = k := by
  rw [State.checkData, State.outOfBounds_none s n h]

theorem State.checkData_fail (s : State) (i : Instr) (n : Nat) (k : Result) (h : 0 < n) (h' : 4096 < s.i.toNat + n) :
    s.checkData i n k = .fault (.dataAddressFault s.insnAddr (encode i) (max s.i.toNat 4096)) := by
  rw [State.checkData, State.outOfBounds_some s n h h']
  rfl

/-- The data check either passes or raises its fault. -/
theorem State.checkData_cases (s : State) (i : Instr) (n : Nat) (k : Result) :
    ((n = 0 ∨ s.i.toNat + n ≤ 4096) ∧ s.checkData i n k = k) ∨
    (0 < n ∧ 4096 < s.i.toNat + n ∧
      s.checkData i n k = .fault (.dataAddressFault s.insnAddr (encode i) (max s.i.toNat 4096))) := by
  by_cases h : n = 0 ∨ s.i.toNat + n ≤ 4096
  · exact .inl ⟨h, State.checkData_pass s i n k h⟩
  · have h1 : 0 < n := by omega
    have h2 : 4096 < s.i.toNat + n := by omega
    exact .inr ⟨h1, h2, State.checkData_fail s i n k h1 h2⟩

theorem State.checkKey_pass (s : State) (i : Instr) (w : Byte) (k : Reg → Result) (h : w.toNat ≤ 15) :
    s.checkKey i w k = k (BitVec.ofNat 4 w.toNat) := by
  simp [State.checkKey, keyOperand, h]

theorem State.checkKey_fail (s : State) (i : Instr) (w : Byte) (k : Reg → Result) (h : 15 < w.toNat) :
    s.checkKey i w k = .fault (.keyIndexFault s.insnAddr (encode i) w) := by
  simp [State.checkKey, keyOperand, Nat.not_le.mpr h, raise]

/-- The key check either passes or raises its fault. -/
theorem State.checkKey_cases (s : State) (i : Instr) (w : Byte) (k : Reg → Result) :
    (w.toNat ≤ 15 ∧ s.checkKey i w k = k (BitVec.ofNat 4 w.toNat)) ∨
    (15 < w.toNat ∧ s.checkKey i w k = .fault (.keyIndexFault s.insnAddr (encode i) w)) := by
  by_cases h : w.toNat ≤ 15
  · exact .inl ⟨h, State.checkKey_pass s i w k h⟩
  · exact .inr ⟨by omega, State.checkKey_fail s i w k (by omega)⟩

/-! ### Flags -/

/-- A flag is exactly 0 or 1. -/
theorem flagByte_cases (b : Bool) : (b = true ∧ flagByte b = 1) ∨ (b = false ∧ flagByte b = 0) := by
  cases b <;> simp [flagByte]

/-- The flag is left in VF, whatever X is (R142). -/
@[simp] theorem State.getV_setResultThenFlag_flag (s : State) (x : Reg) (r f : Byte) :
    (s.setResultThenFlag x r f).getV flagReg = f := by
  simp [State.setResultThenFlag]

/-- Every register but VF and X is left, and X holds the result when it is not VF (R142). -/
theorem State.getV_setResultThenFlag (s : State) (x q : Reg) (r f : Byte) :
    (s.setResultThenFlag x r f).getV q = if q = flagReg then f else if q = x then r else s.getV q := by
  simp [State.setResultThenFlag, State.getV_setV]

end Sys2Proof.Machine
end

