-- ==== Sys2Proof/Laws/Frames.lean ====
section
/-! SUPPORT. The frame of each shared update, in the terms of Safety: which part it changes, and that it changes no other. -/

namespace Sys2Proof.Machine

variable (s : State)

theorem sameBut_setV (x : Reg) (w : Byte) : SameBut s (s.setV x w) [.regs] := by
  intro p hp
  cases p <;> simp_all [SamePart]

theorem regsSameBut_setV (x : Reg) (w : Byte) : RegsSameBut s (s.setV x w) [x] := by
  intro r hr
  simp only [List.mem_singleton] at hr
  simp [hr]

theorem sameBut_setPc (t : Word) : SameBut s (s.setPc t) [.pc] := by
  intro p hp
  cases p <;> simp_all [SamePart]

theorem sameBut_skipIf (c : Bool) : SameBut s (s.skipIf c) [.pc] := by
  rw [State.skipIf_eq]
  exact sameBut_setPc s _

/-- A skip moves pc by 2, modulo 2^16 (R108). -/
theorem toNat_pc_skipIf (c : Bool) :
    (s.skipIf c).pc.toNat = if c = true then (s.pc.toNat + 2) % 65536 else s.pc.toNat := by
  cases c <;> simp

theorem sameBut_setI (t : Word) : SameBut s (s.setI t) [.index] := by
  intro p hp
  cases p <;> simp_all [SamePart]

theorem sameBut_setDT (t : Byte) : SameBut s (s.setDT t) [.delay] := by
  intro p hp
  cases p <;> simp_all [SamePart]

theorem sameBut_setST (t : Byte) : SameBut s (s.setST t) [.sound] := by
  intro p hp
  cases p <;> simp_all [SamePart]

theorem sameBut_setFb (f : Framebuffer) : SameBut s (s.setFb f) [.display] := by
  intro p hp
  cases p <;> simp_all [SamePart]

theorem sameBut_setMem (m : Memory) : SameBut s (s.setMem m) [.memory] := by
  intro p hp
  cases p <;> simp_all [SamePart]

theorem sameBut_setResultThenFlag (x : Reg) (r f : Byte) : SameBut s (s.setResultThenFlag x r f) [.regs] := by
  intro p hp
  cases p <;> simp_all [SamePart, State.setResultThenFlag]

theorem regsSameBut_setResultThenFlag (x : Reg) (r f : Byte) : RegsSameBut s (s.setResultThenFlag x r f) [x, 0xF] := by
  intro q hq
  simp only [List.mem_cons, List.not_mem_nil, or_false, not_or] at hq
  rw [State.getV_setResultThenFlag, if_neg hq.2, if_neg hq.1]

theorem sameBut_loadV (base k : Nat) : SameBut s (s.loadV base k) [.regs] := by
  rw [State.loadV_eq]
  intro p hp
  cases p <;> simp_all [SamePart, State.keyDown]

/-- What a store of a list of bytes that fits leaves at every address. -/
theorem holdsAfterStore_putBytes (m : Memory) (base a : Nat) (bs : List Byte) (value : Nat → Nat)
    (hfit : base + bs.length ≤ Config.memSize) (hv : ∀ k (h : k < bs.length), bs[k].toNat = value k) :
    HoldsAfterStore m base bs.length value a ((m.putBytes base bs).get a).toNat := by
  refine ⟨fun k hk ha => ?_, fun h => ?_⟩
  · rw [ha, Memory.get_putBytes_inside _ _ _ _ hk hfit, hv]
  · rw [Memory.get_putBytes_outside _ _ _ _ h]

end Sys2Proof.Machine
end

