-- ==== Sys2Proof/Laws/PerInstr.lean ====
section
/-! SUPPORT. For every instruction as syntax: the encoder gives a word that its own row of R75 accepts. -/

namespace Sys2Proof.Laws.EncodesItsRow

/-- The word of i matches the row of R75 that i is named by. -/
def Statement (i : Instr) : Prop := ∃ r ∈ opcodeRows, r.mnemonic = i.mnemonic ∧ r.accepts (encode i) = true

/-- Format A in a row of mask 0xF000. -/
theorem ofA {i : Instr} {op : Nat} {nnn : Addr12} (r : OpcodeRow) (hr : r ∈ opcodeRows) (hi : encode i = encodeA op nnn)
    (hn : r.mnemonic = i.mnemonic) (hop : op < 16) (hm : r.mask = 0xF000#16) (hp : r.pattern.toNat = op * 4096) :
    Statement i := by
  refine ⟨r, hr, hn, (OpcodeRow.accepts_iff r _).mpr ?_⟩
  have := nnn.isLt
  rw [hi, hm, hp, mask_F000, encodeA_toNat _ _ hop]
  omega

/-- Format XI in a row of mask 0xF000. -/
theorem ofXI {i : Instr} {op : Nat} {x : Reg} {nn : Byte} (r : OpcodeRow) (hr : r ∈ opcodeRows)
    (hi : encode i = encodeXI op x nn) (hn : r.mnemonic = i.mnemonic) (hop : op < 16) (hm : r.mask = 0xF000#16)
    (hp : r.pattern.toNat = op * 4096) : Statement i := by
  refine ⟨r, hr, hn, (OpcodeRow.accepts_iff r _).mpr ?_⟩
  have := x.isLt
  have := nn.isLt
  rw [hi, hm, hp, mask_F000, encodeXI_toNat _ _ _ hop]
  omega

/-- Format X in a row of mask 0xF0FF. -/
theorem ofX {i : Instr} {op : Nat} {x : Reg} {nn : Byte} (r : OpcodeRow) (hr : r ∈ opcodeRows)
    (hi : encode i = encodeXI op x nn) (hn : r.mnemonic = i.mnemonic) (hop : op < 16) (hm : r.mask = 0xF0FF#16)
    (hp : r.pattern.toNat = op * 4096 + nn.toNat) : Statement i := by
  refine ⟨r, hr, hn, (OpcodeRow.accepts_iff r _).mpr ?_⟩
  have := x.isLt
  have := nn.isLt
  rw [hi, hm, hp, mask_F0FF, encodeXI_toNat _ _ _ hop]
  omega

/-- Format XY in a row of mask 0xF00F. -/
theorem ofXY {i : Instr} {op : Nat} {x y n : Nibble} (r : OpcodeRow) (hr : r ∈ opcodeRows)
    (hi : encode i = wordOfNibbles op x y n) (hn : r.mnemonic = i.mnemonic) (hop : op < 16) (hm : r.mask = 0xF00F#16)
    (hp : r.pattern.toNat = op * 4096 + n.toNat) : Statement i := by
  refine ⟨r, hr, hn, (OpcodeRow.accepts_iff r _).mpr ?_⟩
  have := x.isLt
  have := y.isLt
  have := n.isLt
  rw [hi, hm, hp, mask_F00F, wordOfNibbles_toNat _ _ _ _ hop]
  omega

/-- Format XYN in a row of mask 0xF000. -/
theorem ofXYN {i : Instr} {op : Nat} {x y n : Nibble} (r : OpcodeRow) (hr : r ∈ opcodeRows)
    (hi : encode i = wordOfNibbles op x y n) (hn : r.mnemonic = i.mnemonic) (hop : op < 16) (hm : r.mask = 0xF000#16)
    (hp : r.pattern.toNat = op * 4096) : Statement i := by
  refine ⟨r, hr, hn, (OpcodeRow.accepts_iff r _).mpr ?_⟩
  have := x.isLt
  have := y.isLt
  have := n.isLt
  rw [hi, hm, hp, mask_F000, wordOfNibbles_toNat _ _ _ _ hop]
  omega

theorem nop : Statement .nop := ⟨⟨"0000", 0x0000, 0xFFFF⟩, by decide, rfl, by decide⟩
theorem cls : Statement .cls := ⟨⟨"00E0", 0x00E0, 0xFFFF⟩, by decide, rfl, by decide⟩
theorem ret : Statement .ret := ⟨⟨"00EE", 0x00EE, 0xFFFF⟩, by decide, rfl, by decide⟩
theorem jp (nnn : Addr12) : Statement (.jp nnn) :=
  ofA ⟨"1NNN", 0x1000, 0xF000⟩ (by decide) rfl rfl (by decide) rfl (by decide)
theorem call (nnn : Addr12) : Statement (.call nnn) :=
  ofA ⟨"2NNN", 0x2000, 0xF000⟩ (by decide) rfl rfl (by decide) rfl (by decide)
theorem seImm (x : Reg) (nn : Byte) : Statement (.seImm x nn) :=
  ofXI ⟨"3XNN", 0x3000, 0xF000⟩ (by decide) rfl rfl (by decide) rfl (by decide)
theorem sneImm (x : Reg) (nn : Byte) : Statement (.sneImm x nn) :=
  ofXI ⟨"4XNN", 0x4000, 0xF000⟩ (by decide) rfl rfl (by decide) rfl (by decide)
theorem seReg (x y : Reg) : Statement (.seReg x y) :=
  ofXY ⟨"5XY0", 0x5000, 0xF00F⟩ (by decide) rfl rfl (by decide) rfl (by decide)
theorem ldImm (x : Reg) (nn : Byte) : Statement (.ldImm x nn) :=
  ofXI ⟨"6XNN", 0x6000, 0xF000⟩ (by decide) rfl rfl (by decide) rfl (by decide)
theorem addImm (x : Reg) (nn : Byte) : Statement (.addImm x nn) :=
  ofXI ⟨"7XNN", 0x7000, 0xF000⟩ (by decide) rfl rfl (by decide) rfl (by decide)
theorem ldReg (x y : Reg) : Statement (.ldReg x y) :=
  ofXY ⟨"8XY0", 0x8000, 0xF00F⟩ (by decide) rfl rfl (by decide) rfl (by decide)
theorem orReg (x y : Reg) : Statement (.orReg x y) :=
  ofXY ⟨"8XY1", 0x8001, 0xF00F⟩ (by decide) rfl rfl (by decide) rfl (by decide)
theorem andReg (x y : Reg) : Statement (.andReg x y) :=
  ofXY ⟨"8XY2", 0x8002, 0xF00F⟩ (by decide) rfl rfl (by decide) rfl (by decide)
theorem xorReg (x y : Reg) : Statement (.xorReg x y) :=
  ofXY ⟨"8XY3", 0x8003, 0xF00F⟩ (by decide) rfl rfl (by decide) rfl (by decide)
theorem addReg (x y : Reg) : Statement (.addReg x y) :=
  ofXY ⟨"8XY4", 0x8004, 0xF00F⟩ (by decide) rfl rfl (by decide) rfl (by decide)
theorem subReg (x y : Reg) : Statement (.subReg x y) :=
  ofXY ⟨"8XY5", 0x8005, 0xF00F⟩ (by decide) rfl rfl (by decide) rfl (by decide)
theorem shr (x y : Reg) : Statement (.shr x y) :=
  ofXY ⟨"8XY6", 0x8006, 0xF00F⟩ (by decide) rfl rfl (by decide) rfl (by decide)
theorem subnReg (x y : Reg) : Statement (.subnReg x y) :=
  ofXY ⟨"8XY7", 0x8007, 0xF00F⟩ (by decide) rfl rfl (by decide) rfl (by decide)
theorem shl (x y : Reg) : Statement (.shl x y) :=
  ofXY ⟨"8XYE", 0x800E, 0xF00F⟩ (by decide) rfl rfl (by decide) rfl (by decide)
theorem sneReg (x y : Reg) : Statement (.sneReg x y) :=
  ofXY ⟨"9XY0", 0x9000, 0xF00F⟩ (by decide) rfl rfl (by decide) rfl (by decide)
theorem ldI (nnn : Addr12) : Statement (.ldI nnn) :=
  ofA ⟨"ANNN", 0xA000, 0xF000⟩ (by decide) rfl rfl (by decide) rfl (by decide)
theorem jpV0 (nnn : Addr12) : Statement (.jpV0 nnn) :=
  ofA ⟨"BNNN", 0xB000, 0xF000⟩ (by decide) rfl rfl (by decide) rfl (by decide)
theorem rnd (x : Reg) (nn : Byte) : Statement (.rnd x nn) :=
  ofXI ⟨"CXNN", 0xC000, 0xF000⟩ (by decide) rfl rfl (by decide) rfl (by decide)
theorem drw (x y : Reg) (n : Nibble) : Statement (.drw x y n) :=
  ofXYN ⟨"DXYN", 0xD000, 0xF000⟩ (by decide) rfl rfl (by decide) rfl (by decide)
theorem skp (x : Reg) : Statement (.skp x) :=
  ofX ⟨"EX9E", 0xE09E, 0xF0FF⟩ (by decide) rfl rfl (by decide) rfl (by decide)
theorem sknp (x : Reg) : Statement (.sknp x) :=
  ofX ⟨"EXA1", 0xE0A1, 0xF0FF⟩ (by decide) rfl rfl (by decide) rfl (by decide)
theorem ldFromDT (x : Reg) : Statement (.ldFromDT x) :=
  ofX ⟨"FX07", 0xF007, 0xF0FF⟩ (by decide) rfl rfl (by decide) rfl (by decide)
theorem ldKey (x : Reg) : Statement (.ldKey x) :=
  ofX ⟨"FX0A", 0xF00A, 0xF0FF⟩ (by decide) rfl rfl (by decide) rfl (by decide)
theorem ldDT (x : Reg) : Statement (.ldDT x) :=
  ofX ⟨"FX15", 0xF015, 0xF0FF⟩ (by decide) rfl rfl (by decide) rfl (by decide)
theorem ldST (x : Reg) : Statement (.ldST x) :=
  ofX ⟨"FX18", 0xF018, 0xF0FF⟩ (by decide) rfl rfl (by decide) rfl (by decide)
theorem addI (x : Reg) : Statement (.addI x) :=
  ofX ⟨"FX1E", 0xF01E, 0xF0FF⟩ (by decide) rfl rfl (by decide) rfl (by decide)
theorem ldF (x : Reg) : Statement (.ldF x) :=
  ofX ⟨"FX29", 0xF029, 0xF0FF⟩ (by decide) rfl rfl (by decide) rfl (by decide)
theorem ldB (x : Reg) : Statement (.ldB x) :=
  ofX ⟨"FX33", 0xF033, 0xF0FF⟩ (by decide) rfl rfl (by decide) rfl (by decide)
theorem storeRegs (x : Reg) : Statement (.storeRegs x) :=
  ofX ⟨"FX55", 0xF055, 0xF0FF⟩ (by decide) rfl rfl (by decide) rfl (by decide)
theorem loadRegs (x : Reg) : Statement (.loadRegs x) :=
  ofX ⟨"FX65", 0xF065, 0xF0FF⟩ (by decide) rfl rfl (by decide) rfl (by decide)

end Sys2Proof.Laws.EncodesItsRow
end

