-- ==== Sys2Proof/Laws/Step.lean ====
section
/-! SUPPORT. What a fetch, a step and the step command can do, said once. -/

namespace Sys2Proof.Machine

/-- The three ways a fetch and decode can end, in the order of R259. -/
theorem State.fetchDecode_cases (s : State) :
    (0xFFF ≤ s.pc.toNat ∧ s.fetchDecode = .error (.fetchAddressFault s.pc)) ∨
    (s.pc.toNat < 0xFFF ∧ (∃ e, decode (s.mem.word s.pc.toNat) = .error e) ∧
      s.fetchDecode = .error (.decodeFault s.pc (s.mem.word s.pc.toNat))) ∨
    (s.pc.toNat < 0xFFF ∧ ∃ i, decode (s.mem.word s.pc.toNat) = .ok i ∧ s.fetchDecode = .ok i) := by
  by_cases h : 0xFFF ≤ s.pc.toNat
  · exact .inl ⟨h, by simp [State.fetchDecode, State.fetch, h]⟩
  · refine .inr ?_
    cases hd : decode (s.mem.word s.pc.toNat) with
    | error e => exact .inl ⟨by omega, ⟨e, rfl⟩, by simp [State.fetchDecode, State.fetch, h, hd]⟩
    | ok i => exact .inr ⟨by omega, i, rfl, by simp [State.fetchDecode, State.fetch, h, hd]⟩

theorem State.fetchDecode_ok {s : State} {i : Instr} (hpc : s.pc.toNat < 0xFFF)
    (hd : decode (s.mem.word s.pc.toNat) = .ok i) : s.fetchDecode = .ok i := by
  have : ¬ 0xFFF ≤ s.pc.toNat := by omega
  simp [State.fetchDecode, State.fetch, this, hd]

/-- A step that completes ran the decoded instruction on the advanced state. -/
theorem step_eq_next {s t : State} (h : step s = .next t) :
    ∃ i, s.pc.toNat < 0xFFF ∧ decode (s.mem.word s.pc.toNat) = .ok i ∧ exec i s.advance = .next t := by
  unfold step at h
  rcases s.fetchDecode_cases with ⟨-, hf⟩ | ⟨-, -, hf⟩ | ⟨hpc, i, hd, hf⟩ <;> rw [hf] at h
  · cases h
  · cases h
  · exact ⟨i, hpc, hd, h⟩

/-- The step command that completes ran the decoded instruction with the byte the host supplied. -/
theorem stepWith_eq_next {r : Byte} {s t : State} (h : stepWith r s = .next t) :
    ∃ i, s.pc.toNat < 0xFFF ∧ decode (s.mem.word s.pc.toNat) = .ok i ∧ execWith r i s.advance = .next t := by
  unfold stepWith at h
  rcases s.fetchDecode_cases with ⟨-, hf⟩ | ⟨-, -, hf⟩ | ⟨hpc, i, hd, hf⟩ <;> rw [hf] at h
  · cases h
  · cases h
  · exact ⟨i, hpc, hd, h⟩

/-- CXNN with the free byte is CXNN with that byte given. -/
theorem execWith_randomByte (i : Instr) (s : State) : execWith s.randomByte i s = exec i s := by
  cases i <;> rfl

/-- Every instruction but CXNN is the same whatever byte is given. -/
theorem execWith_of_not_rnd (r : Byte) {i : Instr} (s : State) (h : ∀ x nn, i ≠ .rnd x nn) : execWith r i s = exec i s := by
  cases i <;> first | rfl | exact absurd rfl (h _ _)

end Sys2Proof.Machine
end

