-- ==== Sys2Proof/Tests/Slice0.lean ====
section
/-! SUPPORT. Tests on fixed values, from the vectors of 95_test_vectors.md and the encodings of R72 and R75, and a witness for the
hypotheses of each statement that has any. -/

namespace Sys2Proof.Tests

open Sys2Proof.Machine

/-- The outcome is a next state that passes the check. -/
def nextIs (o : Result) (check : State → Bool) : Bool :=
  match o with
  | .next t => check t
  | _ => false

/-- The outcome is this fault. -/
def faultIs (o : Result) (f : Fault) : Bool :=
  match o with
  | .fault g => decide (g = f)
  | _ => false

/-- The reset state with the word placed where it fetches, at 0x200. -/
def start (w : Nat) : State := State.reset.withFetchWord 16 w

/-- A byte of memory set. -/
def poke (s : State) (a : Nat) (b : Byte) : State := s.setMem (s.mem.put a b)

/-- A key held. -/
def hold (s : State) (k : Int) : State := (setKeyCommand k true s).1

/-- The stack pointer set, with one entry. -/
def withStack (s : State) (sp : Fin 17) (k : Fin 16) (w : Word) : State :=
  { s with sp := sp, stack := s.stack.set k.val w k.isLt }

/-! ### Well-formedness: an ill-formed term for each check -/

theorem test_illegal_word_is_refused : legalWord 0x0123 = false ∧ legalWord 0x5121 = false ∧ legalWord 0x812F = false := by
  decide

theorem programFits_replicate (n : Nat) : programFits (List.replicate n 0) = decide (n ≤ 3584) := by simp [programFits]

theorem test_oversize_program_is_refused : programFits (List.replicate 3585 0) = false := programFits_replicate 3585

theorem test_key_index_16_is_refused : keyIndexFits 16 = false ∧ keyIndexFits (-1) = false := by decide

/-! ### Decoding: a word written out for every constructor, from R72 and R75 -/

theorem test_decode_family_0 : decode 0b0000000000000000#16 = .ok .nop ∧ decode 0b0000000011100000#16 = .ok .cls ∧
    decode 0b0000000011101110#16 = .ok .ret := by decide

theorem test_decode_address : decode 0b0001000000100011#16 = .ok (.jp 0x023) ∧
    decode 0b0010100100010111#16 = .ok (.call 0x917) ∧ decode 0b1010001011110000#16 = .ok (.ldI 0x2F0) ∧
    decode 0b1011001100000000#16 = .ok (.jpV0 0x300) := by decide

theorem test_decode_immediate : decode 0b0011001101000010#16 = .ok (.seImm 3 0x42) ∧
    decode 0b0100101000010011#16 = .ok (.sneImm 0xA 0x13) ∧ decode 0b0110000000001010#16 = .ok (.ldImm 0 0x0A) ∧
    decode 0b0111111100000001#16 = .ok (.addImm 0xF 0x01) ∧ decode 0b1100000100001111#16 = .ok (.rnd 1 0x0F) := by
  decide

theorem test_decode_register_skips : decode 0b0101000100100000#16 = .ok (.seReg 1 2) ∧
    decode 0b1001111111110000#16 = .ok (.sneReg 0xF 0xF) := by decide

theorem test_decode_alu : decode 0b1000000100100000#16 = .ok (.ldReg 1 2) ∧
    decode 0b1000000100100001#16 = .ok (.orReg 1 2) ∧ decode 0b1000000100100010#16 = .ok (.andReg 1 2) ∧
    decode 0b1000000100100011#16 = .ok (.xorReg 1 2) ∧ decode 0b1000000100100100#16 = .ok (.addReg 1 2) ∧
    decode 0b1000000100100101#16 = .ok (.subReg 1 2) ∧ decode 0b1000000100100110#16 = .ok (.shr 1 2) ∧
    decode 0b1000111111110111#16 = .ok (.subnReg 0xF 0xF) ∧ decode 0b1000111100001110#16 = .ok (.shl 0xF 0) := by
  decide

theorem test_decode_draw : decode 0b1101001101000101#16 = .ok (.drw 3 4 5) := by decide

theorem test_decode_key_skips : decode 0b1110111110011110#16 = .ok (.skp 0xF) ∧
    decode 0b1110000110100001#16 = .ok (.sknp 1) := by decide

theorem test_decode_family_F : decode 0b1111001100000111#16 = .ok (.ldFromDT 3) ∧
    decode 0b1111000100001010#16 = .ok (.ldKey 1) ∧ decode 0b1111001000010101#16 = .ok (.ldDT 2) ∧
    decode 0b1111001000011000#16 = .ok (.ldST 2) ∧ decode 0b1111001000011110#16 = .ok (.addI 2) ∧
    decode 0b1111010000101001#16 = .ok (.ldF 4) ∧ decode 0b1111010100110011#16 = .ok (.ldB 5) ∧
    decode 0b1111001001010101#16 = .ok (.storeRegs 2) ∧ decode 0b1111111101100101#16 = .ok (.loadRegs 0xF) := by
  decide

theorem test_decode_illegal : decode 0x00FF = .error (.illegalWord 0x00FF) ∧ decode 0x812D = .error (.illegalWord 0x812D) ∧
    decode 0xE19F = .error (.illegalWord 0xE19F) ∧ decode 0xF0FF = .error (.illegalWord 0xF0FF) ∧
    decodeBytes [0x00] = .error .truncated ∧ decodeTableWord 16 0xF265 = some (.loadRegs 2) := by decide

/-! ### Steps: the vectors of 95_test_vectors.md -/

theorem test_nop : nextIs (step (start 0x0000)) (fun t => t.pc == 0x202) = true := by decide

theorem test_jp : nextIs (step (start 0x1ABC)) (fun t => t.pc == 0xABC) = true := by decide

theorem test_call_pushes : nextIs (step (start 0x2300)) (fun t => t.pc == 0x300 && t.sp == 1 && t.stack[0] == 0x202) = true := by
  decide

theorem test_call_overflows :
    faultIs (step (withStack (start 0x2300) 16 0 0)) (.stackFault .overflow 0x200 0x2300) = true := by decide

theorem test_ret_pops : nextIs (step (withStack (start 0x00EE) 16 15 0x220)) (fun t => t.pc == 0x220 && t.sp == 15) = true := by
  decide

theorem test_ret_underflows : faultIs (step (start 0x00EE)) (.stackFault .underflow 0x200 0x00EE) = true := by decide

theorem test_jpV0_not_masked : nextIs (step ((start 0xBFFF).setV 0 0xFF)) (fun t => t.pc == 0x10FE) = true := by decide

theorem test_seImm : nextIs (step ((start 0x3A12).setV 0xA 0x12)) (fun t => t.pc == 0x204) = true := by decide

theorem test_sneImm : nextIs (step ((start 0x4A12).setV 0xA 0x12)) (fun t => t.pc == 0x202) = true := by decide

theorem test_seReg : nextIs (step (((start 0x5120).setV 1 7).setV 2 8)) (fun t => t.pc == 0x202) = true := by decide

theorem test_sneReg : nextIs (step (((start 0x9120).setV 1 7).setV 2 8)) (fun t => t.pc == 0x204) = true := by decide

theorem test_ldImm : nextIs (step (start 0x6AFF)) (fun t => t.getV 0xA == 0xFF && t.pc == 0x202) = true := by decide

theorem test_addImm_keeps_vf :
    nextIs (step (((start 0x7A01).setV 0xA 0xFF).setV 0xF 0x5A)) (fun t => t.getV 0xA == 0 && t.getV 0xF == 0x5A) = true := by
  decide

theorem test_ldReg : nextIs (step (((start 0x8120).setV 1 0x11).setV 2 0x22)) (fun t => t.getV 1 == 0x22) = true := by decide

theorem test_orReg :
    nextIs (step ((((start 0x8121).setV 1 0xF0).setV 2 0x0F).setV 0xF 0x77)) (fun t => t.getV 1 == 0xFF && t.getV 0xF == 0x77) = true := by
  decide

theorem test_andReg : nextIs (step (((start 0x8122).setV 1 0xF0).setV 2 0x3C)) (fun t => t.getV 1 == 0x30) = true := by decide

theorem test_xorReg : nextIs (step (((start 0x8123).setV 1 0xFF).setV 2 0x0F)) (fun t => t.getV 1 == 0xF0) = true := by decide

theorem test_addReg_flag_wins : nextIs (step (((start 0x8F24).setV 0xF 0xFF).setV 2 1)) (fun t => t.getV 0xF == 1) = true := by
  decide

theorem test_addReg_reads_old_vf :
    nextIs (step (((start 0x81F4).setV 1 0x10).setV 0xF 1)) (fun t => t.getV 1 == 0x11 && t.getV 0xF == 0) = true := by decide

theorem test_subReg_borrow :
    nextIs (step (((start 0x8125).setV 1 3).setV 2 5)) (fun t => t.getV 1 == 0xFE && t.getV 0xF == 0) = true := by decide

theorem test_subReg_equal :
    nextIs (step (((start 0x8125).setV 1 7).setV 2 7)) (fun t => t.getV 1 == 0 && t.getV 0xF == 1) = true := by decide

theorem test_subnReg :
    nextIs (step (((start 0x8127).setV 1 5).setV 2 3)) (fun t => t.getV 1 == 0xFE && t.getV 0xF == 0) = true := by decide

theorem test_shr_ignores_vy :
    nextIs (step (((start 0x8126).setV 1 1).setV 2 0xFF)) (fun t => t.getV 1 == 0 && t.getV 0xF == 1) = true := by decide

theorem test_shr_flag_wins : nextIs (step ((start 0x8F06).setV 0xF 2)) (fun t => t.getV 0xF == 0) = true := by decide

theorem test_shl : nextIs (step ((start 0x812E).setV 1 0x81)) (fun t => t.getV 1 == 0x02 && t.getV 0xF == 1) = true := by decide

theorem test_rnd_masks : nextIs (stepWith 0xAB (start 0xC10F)) (fun t => t.getV 1 == 0x0B) = true := by decide

theorem test_ldI : nextIs (step (start 0xA123)) (fun t => t.i == 0x123) = true := by decide

theorem test_addI_wraps :
    nextIs (step ((((start 0xF11E).setI 0xFFFF).setV 1 1).setV 0xF 0x77)) (fun t => t.i == 0 && t.getV 0xF == 0x77) = true := by
  decide

theorem test_ldF_whole_byte : nextIs (step ((start 0xF129).setV 1 0x1A)) (fun t => t.i == 0x082) = true := by decide

theorem test_ldB : nextIs (step (((start 0xF133).setV 1 123).setI 0xFFD))
    (fun t => t.mem.get 0xFFD == 1 && t.mem.get 0xFFE == 2 && t.mem.get 0xFFF == 3) = true := by decide

theorem test_ldB_faults : faultIs (step (((start 0xF133).setV 1 1).setI 0xFFE)) (.dataAddressFault 0x200 0xF133 0x1000) = true := by
  decide

theorem test_storeRegs : nextIs (step (((((start 0xF255).setV 0 1).setV 1 2).setV 2 3).setI 0x400))
    (fun t => t.mem.get 0x400 == 1 && t.mem.get 0x402 == 3 && t.i == 0x400) = true := by decide

theorem test_storeRegs_faults : faultIs (step ((start 0xF055).setI 0x1000)) (.dataAddressFault 0x200 0xF055 0x1000) = true := by
  decide

theorem test_loadRegs : nextIs (step (poke ((start 0xFF65).setI 0x300) 0x30F 0x99))
    (fun t => t.getV 0xF == 0x99 && t.getV 0xE == 0) = true := by decide

theorem test_cls : nextIs (step ((start 0x00E0).setFb (State.reset.fb.flip 63 31))) (fun t => !t.fb.pixel 63 31) = true := by
  decide

theorem test_drw_wraps : nextIs (step (poke (poke ((((start 0xD012).setI 0x300).setV 0 0x3C).setV 1 0x1F) 0x300 0x81) 0x301 0x81))
    (fun t => t.fb.pixel 60 31 && t.fb.pixel 3 31 && t.fb.pixel 60 0 && t.fb.pixel 3 0 && t.getV 0xF == 0) = true := by
  decide +kernel

theorem test_drw_collides : nextIs (step ((poke ((start 0xD011).setI 0x300) 0x300 0xF0).setFb (State.reset.fb.flip 1 0)))
    (fun t => t.fb.pixel 0 0 && !t.fb.pixel 1 0 && t.getV 0xF == 1) = true := by decide +kernel

theorem test_skp : nextIs (step (hold ((start 0xE19E).setV 1 5) 5)) (fun t => t.pc == 0x204) = true := by decide

theorem test_skp_faults : faultIs (step ((start 0xE19E).setV 1 0x10)) (.keyIndexFault 0x200 0xE19E 0x10) = true := by decide

theorem test_sknp : nextIs (step ((start 0xE1A1).setV 1 5)) (fun t => t.pc == 0x204) = true := by decide

theorem test_ldFromDT : nextIs (step ((start 0xF107).setDT 60)) (fun t => t.getV 1 == 0x3C) = true := by decide

theorem test_ldKey_waits : nextIs (step (start 0xF10A)) (fun t => t.pc == 0x200) = true := by decide

theorem test_ldKey_lowest : nextIs (step (hold (hold (start 0xF10A) 7) 3)) (fun t => t.getV 1 == 3 && t.pc == 0x202) = true := by
  decide

theorem test_ldDT : nextIs (step ((start 0xF115).setV 1 0x3C)) (fun t => t.dt == 60) = true := by decide

theorem test_ldST : nextIs (step ((start 0xF118).setV 1 1)) (fun t => t.st == 1) = true := by decide

theorem test_odd_pc : nextIs (step ((State.reset.setPc 0x201).withFetchWord 16 0x602A)) (fun t => t.getV 0 == 0x2A && t.pc == 0x203) = true := by
  decide

theorem test_highest_fetch : nextIs (step (State.reset.setPc 0xFFE)) (fun t => t.pc == 0x1000) = true := by decide

theorem test_fetch_fault : faultIs (step (State.reset.setPc 0xFFF)) (.fetchAddressFault 0xFFF) = true := by decide

theorem test_decode_fault : faultIs (step (start 0x5121)) (.decodeFault 0x200 0x5121) = true := by decide

theorem test_tick : (tickTimersCommand ((State.reset.setDT 1).setST 0)).dt = 0 ∧
    (tickTimersCommand ((State.reset.setDT 0xFF).setST 0)).dt = 0xFE ∧
    (tickTimersCommand (State.reset.setDT 1)).st = 0 := by decide

theorem test_fault_codes : faultCode (.decodeFault 0 0) = 1 ∧ faultCode (.fetchAddressFault 0) = 2 ∧
    faultCode (.stackFault .overflow 0 0) = 3 ∧ faultCode (.loadFault 3585) = 4 ∧ faultCode (.keyIndexFault 0 0 16) = 5 ∧
    faultCode (.keyArgumentError 16) = 6 := by decide

/-! ### Witnesses: concrete values that meet the hypotheses of each statement that has any -/

theorem witness_StepKeepsTheInvariant : MachineInv State.reset ∧ step State.reset = .next (State.reset.setPc 0x202) :=
  ⟨by decide, rfl⟩

theorem witness_ReachableStatesMeetTheInvariant : Reachable (State.resetWith Config.font) := ⟨Config.font, [], rfl⟩

theorem witness_ResetLeavesTheTableOfR35 : Command.init = .init ∨ Command.init = .reset := by decide

theorem witness_EncodeOfDecodeIsTheWord : decode 0xD345 = .ok (.drw 3 4 5) := by decide

theorem witness_DecoderFollowsTheOpcodeTable :
    ((⟨"8XYE", 0x800E, 0xF00F⟩ : OpcodeRow) ∈ opcodeRows ∧ OpcodeRow.accepts ⟨"8XYE", 0x800E, 0xF00F⟩ 0x8F0E = true) ∧
    legalWord 0x8F0F = false := by decide

theorem witness_NoWordMatchesTwoRows : (⟨"0000", 0x0000, 0xFFFF⟩ : OpcodeRow) ∈ opcodeRows ∧
    OpcodeRow.accepts ⟨"0000", 0x0000, 0xFFFF⟩ 0x0000 = true := by decide

/-- A boundary word of each of the six sets of R77, with pc and the fetched word. -/
theorem witness_IllegalWordsRaiseDecodeFault : ∀ w ∈ [0x0001, 0x0FFF, 0x5001, 0x500F, 0x8008, 0x800F, 0x9001, 0xE09D, 0xE0A2, 0xF000, 0xF066],
    (start w).pc.toNat < 0xFFF ∧ ((start w).mem.word (start w).pc.toNat).toNat = w := by decide

theorem witness_IllegalWords_sets : (0x0FFF#16 ≠ 0x00EE#16 ∧ 0x0FFF ≤ 0x0FFF) ∧ (0x5001 / 4096 = 5 ∧ 0x5001 % 16 ≠ 0) ∧
    (0x8008 / 4096 = 8 ∧ 0x8008 % 16 ∈ [8, 9, 0xA, 0xB, 0xC, 0xD, 0xF]) ∧ (0x9001 / 4096 = 9 ∧ 0x9001 % 16 ≠ 0) ∧
    (0xE0A2 / 4096 = 0xE ∧ 0xE0A2 % 256 ∉ [0x9E, 0xA1]) ∧
    (0xF066 / 4096 = 0xF ∧ 0xF066 % 256 ∉ [0x07, 0x0A, 0x15, 0x18, 0x1E, 0x29, 0x33, 0x55, 0x65]) := by decide

theorem witness_StepRunsTheDecodedInstruction : (start 0x602A).pc.toNat < 0xFFF ∧
    (0x602A#16).toNat = ((start 0x602A).mem.get (start 0x602A).pc.toNat).toNat * 256 +
      ((start 0x602A).mem.get ((start 0x602A).pc.toNat + 1)).toNat ∧ decode 0x602A = .ok (.ldImm 0 0x2A) := by decide

theorem witness_FetchBoundIs0xFFF : 0xFFF ≤ (State.reset.setPc 0xFFF).pc.toNat ∧ (State.reset.setPc 0xFFE).pc.toNat < 0xFFF := by
  decide

/-- One state for each of the three kinds of step fault. -/
theorem witness_StepFaultsExactlyWhenTheSpecSays : step (State.reset.setPc 0xFFF) = .fault (.fetchAddressFault 0xFFF) ∧
    step (start 0x5121) = .fault (.decodeFault 0x200 0x5121) ∧
    step (start 0x00EE) = .fault (.stackFault .underflow 0x200 0x00EE) := ⟨rfl, rfl, rfl⟩

theorem witness_FaultedCommandChangesNothing :
    (runCommand Config.font (.setKey 16 true) State.reset).2 = .fault (.keyArgumentError 16) := rfl

theorem witness_FaultedStepFaultsAgain :
    (runCommand Config.font (.step 0) (start 0x5121)).2 = .fault (.decodeFault 0x200 0x5121) := rfl

theorem witness_OnlyCxnnReadsTheRandomByte : ∀ x nn, State.reset.fetchDecode ≠ .ok (.rnd x nn) := by
  intro x nn h
  have : State.reset.fetchDecode = .ok .nop := rfl
  rw [this] at h
  cases h

theorem witness_PlacedWordIsTheNextStep : decode 0xF265 = .ok (.loadRegs 2) := by decide

theorem witness_NopOnlyAdvancesPc : State.reset.pc.toNat < 0xFFF ∧ State.reset.mem.get State.reset.pc.toNat = 0 ∧
    State.reset.mem.get (State.reset.pc.toNat + 1) = 0 := by decide

/-- The clauses of the call and the return at the ends of their ranges. -/
theorem witness_CallAndRet : (withStack State.reset 15 0 0).sp.val < 16 ∧ (withStack State.reset 16 0 0).sp.val = 16 ∧
    0 < (withStack State.reset 1 0 0x202).sp.val ∧ State.reset.sp.val = 0 := by decide

/-- The subroutine made a nested call and came back: entry 1, above the stack pointer, has changed. -/
theorem witness_ReturnComesBackAfterTheCall : ∃ t, exec (.call 0x300) State.reset = .next t ∧
    ∃ u : State, u.sp = t.sp ∧ (∀ k : Fin 16, k.val = State.reset.sp.val → u.stack[k] = t.stack[k]) ∧ u.stack ≠ t.stack :=
  ⟨_, rfl, withStack (withStack State.reset 1 1 0x302) 1 0 0x200, rfl, by decide, by decide⟩

theorem witness_SelfJumpIdles : (start 0x1200).pc.toNat < 0xFFF ∧
    ((start 0x1200).mem.word (start 0x1200).pc.toNat).toNat = 0x1000 + (start 0x1200).pc.toNat := by decide

/-- X other than F, for the result clauses of the flag-writing operations. -/
theorem witness_result_register_is_not_vf : (1 : Reg) ≠ 0xF := by decide

theorem witness_BcdStoresThreeDigits : (State.reset.setI 0xFFD).i.toNat + 2 < 4096 := by decide

theorem witness_StoreAndLoadRegisters : (State.reset.setI 0xFF0).i.toNat + (0xF : Reg).toNat < 4096 := by decide

theorem witness_StoreThenLoadRestoresRegisters : ∃ t, exec (.storeRegs 2) (State.reset.setI 0xFFD) = .next t ∧
    t.i = (State.reset.setI 0xFFD).i ∧ ∀ k ≤ (2 : Reg).toNat, t.mem.get (0xFFD + k) = t.mem.get (0xFFD + k) :=
  ⟨_, rfl, rfl, fun _ _ => rfl⟩

/-- Both clauses: the first address outside memory is the third of FX33, and all of FX33's are inside at 0xFFD. -/
theorem witness_DataAccessOutsideMemoryFaults :
    (2 < dataAccesses (.ldB 1) ∧ 4096 ≤ (State.reset.setI 0xFFE).i.toNat + 2 ∧
      ∀ j < 2, (State.reset.setI 0xFFE).i.toNat + j < 4096) ∧
    ∀ k < dataAccesses (.ldB 1), (State.reset.setI 0xFFD).i.toNat + k < 4096 := by decide

/-- Each clause at an edge: FX55 stores the low byte alone of the last word of memory, FX33 its high byte alone, and load both
bytes of the word at pc. -/
theorem witness_StoreIsSeenByTheNextFetch :
    (∃ t, exec (.storeRegs 0) ((State.reset.setI 0xFFF).setPc 0xFFE) = .next t) ∧
    (∃ t, exec (.ldB 1) ((State.reset.setI 0xFFC).setPc 0xFFE) = .next t) ∧
    ((State.reset.setI 0xFFC).setPc 0xFFE).pc.toNat < 0xFFF ∧
    (∃ t, runCommand Config.font (.load [0x60, 0x2A]) State.reset = (t, .ok)) :=
  ⟨⟨_, rfl⟩, ⟨_, rfl⟩, by decide, ⟨_, rfl⟩⟩

/-- Both ways to meet the hypothesis: no rows from any I, and the last byte of memory. -/
theorem witness_DrawXorsTheSpriteAndReportsCollision :
    (State.reset.setI 0xFFF).i.toNat + (1 : Nibble).toNat ≤ 4096 ∧ ((0 : Nibble) = 0 ∨ 0xFFFF + 0 ≤ 4096) := by decide

theorem witness_DrawingTwiceRestoresTheScreen : ∃ t w, exec (.drw 0 1 1) State.reset = .next t ∧
    exec (.drw 0 1 1) { State.reset with fb := t.fb } = .next w := ⟨_, _, rfl, rfl⟩

theorem witness_ReadDisplayAfterCls : ∃ t, exec .cls State.reset = .next t := ⟨_, rfl⟩

/-- The clauses of the key skips at their boundary, 15 and 16. -/
theorem witness_KeySkipsReadTheKeyOrFault : ((State.reset.setV 1 15).getV 1).toNat = (0xF : Reg).toNat ∧
    15 < ((State.reset.setV 1 16).getV 1).toNat := by decide

theorem witness_WaitForKeyWaitsOrTakesTheLowest : (∀ k, (start 0xF10A).keyDown k = false) ∧ (start 0xF10A).pc.toNat < 0xFFF ∧
    (start 0xF10A).mem.word (start 0xF10A).pc.toNat = wrap16 (0xF00A + (1 : Reg).toNat * 256) ∧
    (hold State.reset 3).keyDown 3 = true ∧ ∀ j : Reg, j.toNat < 3 → (hold State.reset 3).keyDown j = false := by decide

theorem witness_SetKeyWritesOneFlagOrRefuses : keyIndexFits 15 = true ∧ keyIndexFits 16 = false := by decide

theorem witness_LoadCopiesTheProgramAt0x200 : programFits (List.replicate 3584 0) = true := programFits_replicate 3584

theorem witness_OversizeLoadIsRejectedWhole : 3584 < (List.replicate 3585 (0 : Byte)).length :=
  Nat.lt_of_lt_of_eq (by decide : 3584 < 3585) List.length_replicate.symm

/-- A step that none of the whole-machine rules excludes, with each rule's exceptions ruled out by its instruction, 0000. -/
theorem witness_whole_machine_rules : State.reset.fetchDecode = .ok .nop ∧
    stepWith 0 State.reset = .next (State.reset.setPc 0x202) ∧ writesVF .nop = false := ⟨rfl, rfl, rfl⟩

/-- Commands that each clause about the other commands speaks of. -/
theorem witness_WhoMovesTheTimersAndTheKeys : (Command.setKey 3 true ≠ .init ∧ Command.setKey 3 true ≠ .reset ∧
    Command.setKey 3 true ≠ .tickTimers ∧ ∀ r, Command.setKey 3 true ≠ .step r) ∧
    (∀ k p, Command.tickTimers ≠ .setKey k p) :=
  ⟨⟨by decide, by decide, by decide, fun _ => nofun⟩, fun _ _ => nofun⟩

theorem witness_OnlyClsDrwAndResetWriteTheFramebuffer : Command.tickTimers ≠ .init ∧ Command.tickTimers ≠ .reset ∧
    ∀ r, Command.tickTimers ≠ .step r := ⟨by decide, by decide, fun _ => nofun⟩

/-- The stores of the memory rule, at the top of memory. -/
theorem witness_OnlyBcdAndStoreWriteMemory : ((start 0xF133).setI 0xFFD).fetchDecode = .ok (.ldB 1) ∧
    ((start 0xF255).setI 0xFFD).fetchDecode = .ok (.storeRegs 2) := ⟨rfl, rfl⟩

end Sys2Proof.Tests
end

/-! SUPPORT. What a completing instruction can change: the parts of the state it may write (its footprint), the stack
pointer controller, and the range of pc. -/

namespace Sys2Proof.Machine

/-! ### Changes confined to some parts -/

/-- From s to t nothing but the listed parts changes. A memory that is not listed is the same list, and not only the same
to read, so that its canonical form is kept with it (log 3). -/
structure ChangesOnly (s t : State) (parts : List Part) : Prop where
  sameBut : SameBut s t parts
  mem : .memory ∉ parts → t.mem = s.mem

theorem ChangesOnly.refl (s : State) : ChangesOnly s s [] :=
  ⟨fun p _ => by cases p <;> simp [SamePart], fun _ => rfl⟩

theorem SamePart.trans {s t u : State} {p : Part} (h : SamePart s t p) (h' : SamePart t u p) : SamePart s u p := by
  cases p <;> simp_all [SamePart]

theorem ChangesOnly.trans {s t u : State} {ps qs : List Part} (h : ChangesOnly s t ps) (h' : ChangesOnly t u qs) :
    ChangesOnly s u (ps ++ qs) where
  sameBut p hp := by
    rw [List.mem_append, not_or] at hp
    exact (h.sameBut p hp.1).trans (h'.sameBut p hp.2)
  mem hp := by
    rw [List.mem_append, not_or] at hp
    exact (h'.mem hp.2).trans (h.mem hp.1)

theorem ChangesOnly.mono {s t : State} {ps qs : List Part} (h : ChangesOnly s t ps) (hsub : ps ⊆ qs) :
    ChangesOnly s t qs :=
  ⟨fun p hp => h.sameBut p fun hm => hp (hsub hm), fun hp => h.mem fun hm => hp (hsub hm)⟩

section
variable (s : State)

theorem changesOnly_setV (x : Reg) (w : Byte) : ChangesOnly s (s.setV x w) [.regs] := ⟨sameBut_setV s x w, fun _ => rfl⟩

theorem changesOnly_setResultThenFlag (x : Reg) (w f : Byte) : ChangesOnly s (s.setResultThenFlag x w f) [.regs] :=
  ⟨sameBut_setResultThenFlag s x w f, fun _ => rfl⟩

theorem changesOnly_loadV (base k : Nat) : ChangesOnly s (s.loadV base k) [.regs] :=
  ⟨sameBut_loadV s base k, fun _ => by rw [State.loadV_eq]⟩

theorem changesOnly_setPc (a : Word) : ChangesOnly s (s.setPc a) [.pc] := ⟨sameBut_setPc s a, fun _ => rfl⟩

theorem changesOnly_skipIf (c : Bool) : ChangesOnly s (s.skipIf c) [.pc] :=
  ⟨sameBut_skipIf s c, fun _ => State.skipIf_mem s c⟩

theorem changesOnly_setI (a : Word) : ChangesOnly s (s.setI a) [.index] := ⟨sameBut_setI s a, fun _ => rfl⟩

theorem changesOnly_setDT (w : Byte) : ChangesOnly s (s.setDT w) [.delay] := ⟨sameBut_setDT s w, fun _ => rfl⟩

theorem changesOnly_setST (w : Byte) : ChangesOnly s (s.setST w) [.sound] := ⟨sameBut_setST s w, fun _ => rfl⟩

theorem changesOnly_setFb (f : Framebuffer) : ChangesOnly s (s.setFb f) [.display] := ⟨sameBut_setFb s f, fun _ => rfl⟩

theorem changesOnly_setMem (m : Memory) : ChangesOnly s (s.setMem m) [.memory] :=
  ⟨sameBut_setMem s m, fun h => by simp at h⟩

theorem changesOnly_consumeDraw : ChangesOnly s s.consumeDraw [.draws] :=
  ⟨fun p hp => by cases p <;> simp_all [SamePart], fun _ => rfl⟩

end

/-! ### The stack pointer controller (R26) -/

/-- A push that does not overflow, in full (R123). -/
theorem State.push_eq_some {s s' : State} {w : Word} (h : s.push w = some s') : ∃ hsp : s.sp.val < 16,
    s' = { s with stack := s.stack.set s.sp.val w hsp, sp := ⟨s.sp.val + 1, by omega⟩ } := by
  by_cases hsp : s.sp.val < 16
  · rw [State.push_of_lt s w hsp, Option.some.injEq] at h
    exact ⟨hsp, h.symm⟩
  · rw [State.push_of_full s w (by omega)] at h
    cases h

/-- A pop that does not underflow, in full (R121). -/
theorem State.pop_eq_some {s s' : State} {w : Word} (h : s.pop = some (w, s')) : ∃ hsp : 0 < s.sp.val,
    w = s.stack[s.sp.val - 1] ∧ s' = { s with sp := ⟨s.sp.val - 1, by omega⟩ } := by
  by_cases hsp : 0 < s.sp.val
  · rw [State.pop_of_pos s hsp, Option.some.injEq, Prod.mk.injEq] at h
    exact ⟨hsp, h.1.symm, h.2.symm⟩
  · rw [State.pop_of_empty s (by omega)] at h
    cases h

theorem changesOnly_push {s s' : State} {w : Word} (h : s.push w = some s') : ChangesOnly s s' [.stack] := by
  obtain ⟨hsp, rfl⟩ := State.push_eq_some h
  exact ⟨fun p hp => by cases p <;> simp_all [SamePart, State.getV, State.keyDown], fun _ => rfl⟩

theorem changesOnly_pop {s s' : State} {w : Word} (h : s.pop = some (w, s')) : ChangesOnly s s' [.stack] := by
  obtain ⟨hsp, -, rfl⟩ := State.pop_eq_some h
  exact ⟨fun p hp => by cases p <;> simp_all [SamePart, State.getV, State.keyDown], fun _ => rfl⟩

/-- A pop leaves every entry, the popped one too (D12). -/
theorem State.pop_stack {s s' : State} {w : Word} (h : s.pop = some (w, s')) : s'.stack = s.stack := by
  obtain ⟨hsp, -, rfl⟩ := State.pop_eq_some h
  rfl

theorem stackBounded_push {s s' : State} {w : Word} (h : s.push w = some s') (hs : StackBounded s)
    (hw : w.toNat ≤ 0x1000) : StackBounded s' := by
  obtain ⟨hsp, rfl⟩ := State.push_eq_some h
  intro k hk
  by_cases hkw : k.val = s.sp.val
  · simpa [hkw] using hw
  · have hold : k.val < s.sp.val := by
      change k.val < s.sp.val + 1 at hk
      omega
    simpa [Vector.getElem_set, Ne.symm hkw] using hs k hold

theorem stackBounded_pop {s s' : State} {w : Word} (h : s.pop = some (w, s')) (hs : StackBounded s) : StackBounded s' := by
  obtain ⟨hsp, -, rfl⟩ := State.pop_eq_some h
  intro k hk
  change k.val < s.sp.val - 1 at hk
  exact hs k (by omega)

/-- What is popped was in use, so it is bounded. -/
theorem popped_bounded {s s' : State} {w : Word} (h : s.pop = some (w, s')) (hs : StackBounded s) : w.toNat ≤ 0x1000 := by
  obtain ⟨hsp, rfl, -⟩ := State.pop_eq_some h
  exact hs ⟨s.sp.val - 1, by omega⟩ (by show s.sp.val - 1 < s.sp.val; omega)

/-! ### Meanings that can fault, when they complete -/

theorem State.checkData_eq_next {s t : State} {i : Instr} {n : Nat} {k : Result} (h : s.checkData i n k = .next t) :
    k = .next t := by
  obtain ⟨-, hk⟩ | ⟨-, -, hf⟩ := s.checkData_cases i n k
  · exact hk.symm.trans h
  · rw [hf] at h
    cases h

theorem State.checkKey_eq_next {s t : State} {i : Instr} {w : Byte} {k : Reg → Result}
    (h : s.checkKey i w k = .next t) : k (BitVec.ofNat 4 w.toNat) = .next t := by
  obtain ⟨-, hk⟩ | ⟨-, hf⟩ := s.checkKey_cases i w k
  · exact hk.symm.trans h
  · rw [hf] at h
    cases h

theorem execRet_eq_next {s t : State} (h : execRet s = .next t) : ∃ w s', s.pop = some (w, s') ∧ t = s'.setPc w := by
  unfold execRet at h
  split at h
  · cases h
  · next w s' hpop =>
    cases h
    exact ⟨w, s', hpop, rfl⟩

theorem execCall_eq_next {s t : State} {nnn : Addr12} (h : execCall nnn s = .next t) :
    ∃ s', s.push s.pc = some s' ∧ t = s'.setPc (zextAddr nnn) := by
  unfold execCall at h
  split at h
  · cases h
  · next s' hpush =>
    cases h
    exact ⟨s', hpush, rfl⟩

/-- The key wait goes back to its own address or writes V[X] (R215). -/
theorem execLdKey_eq_next {s t : State} {x : Reg} (h : execLdKey x s = .next t) :
    t = s.setPc (s.pc - 2) ∨ ∃ w, t = s.setV x w := by
  unfold execLdKey at h
  split at h <;> cases h
  · exact .inl rfl
  · exact .inr ⟨_, rfl⟩

/-! ### The footprint of an instruction -/

/-- The parts of the state an instruction may write, beside the fetch's advance of pc. -/
def footprint : Instr → List Part
  | .nop => []
  | .cls => [.display]
  | .ret | .call _ => [.stack, .pc]
  | .jp _ | .jpV0 _ | .seImm _ _ | .sneImm _ _ | .seReg _ _ | .sneReg _ _ | .skp _ | .sknp _ => [.pc]
  | .ldImm _ _ | .addImm _ _ | .ldReg _ _ | .orReg _ _ | .andReg _ _ | .xorReg _ _ | .addReg _ _ | .subReg _ _
  | .shr _ _ | .subnReg _ _ | .shl _ _ | .ldFromDT _ | .loadRegs _ => [.regs]
  | .rnd _ _ => [.regs, .draws]
  | .drw _ _ _ => [.display, .regs]
  | .ldKey _ => [.pc, .regs]
  | .ldDT _ => [.delay]
  | .ldST _ => [.sound]
  | .ldI _ | .addI _ | .ldF _ => [.index]
  | .ldB _ | .storeRegs _ => [.memory]

/-- An instruction that completes changes its footprint only. -/
theorem execWith_changesOnly {r : Byte} {i : Instr} {s t : State} (h : execWith r i s = .next t) :
    ChangesOnly s t (footprint i) := by
  cases i with
  | nop => cases h; exact .refl s
  | cls => cases h; exact changesOnly_setFb s _
  | ret =>
    obtain ⟨w, s', hpop, rfl⟩ := execRet_eq_next h
    exact (changesOnly_pop hpop).trans (changesOnly_setPc s' w)
  | call nnn =>
    obtain ⟨s', hpush, rfl⟩ := execCall_eq_next h
    exact (changesOnly_push hpush).trans (changesOnly_setPc s' _)
  | jp | jpV0 => cases h; exact changesOnly_setPc s _
  | seImm | sneImm | seReg | sneReg => cases h; exact changesOnly_skipIf s _
  | skp | sknp => cases State.checkKey_eq_next h; exact changesOnly_skipIf s _
  | ldImm | addImm | ldReg | orReg | andReg | xorReg | ldFromDT => cases h; exact changesOnly_setV s _ _
  | addReg | subReg | shr | subnReg | shl => cases h; exact changesOnly_setResultThenFlag s _ _ _
  | rnd => cases h; exact (changesOnly_setV s _ _).trans (changesOnly_consumeDraw _)
  | drw => cases State.checkData_eq_next h; exact (changesOnly_setFb s _).trans (changesOnly_setV _ _ _)
  | ldKey =>
    obtain rfl | ⟨w, rfl⟩ := execLdKey_eq_next h
    · exact (changesOnly_setPc s _).mono (by simp [footprint])
    · exact (changesOnly_setV s _ w).mono (by simp [footprint])
  | ldDT => cases h; exact changesOnly_setDT s _
  | ldST => cases h; exact changesOnly_setST s _
  | ldI | addI | ldF => cases h; exact changesOnly_setI s _
  | ldB | storeRegs => cases State.checkData_eq_next h; exact changesOnly_setMem s _
  | loadRegs => cases State.checkData_eq_next h; exact changesOnly_loadV s _ _

/-! ### What an instruction keeps of the invariant -/

/-- Memory is replaced only by byte stores, which keep its canonical form. -/
theorem execWith_keeps_wf {r : Byte} {i : Instr} {s t : State} (h : execWith r i s = .next t) (hm : s.mem.wf) :
    t.mem.wf := by
  by_cases hi : .memory ∈ footprint i
  · cases i with
    | ldB | storeRegs => cases State.checkData_eq_next h; exact Memory.wf_putBytes hm _ _
    | _ => simp [footprint] at hi
  · rw [(execWith_changesOnly h).mem hi]
    exact hm

/-- A call pushes the advanced pc, a return drops an entry, and nothing else moves the stack. -/
theorem execWith_keeps_stackBounded {r : Byte} {i : Instr} {s t : State} (h : execWith r i s = .next t)
    (hpc : s.pc.toNat ≤ 0x1000) (hs : StackBounded s) : StackBounded t := by
  by_cases hi : .stack ∈ footprint i
  · cases i with
    | ret =>
      obtain ⟨w, s', hpop, rfl⟩ := execRet_eq_next h
      exact (stackBounded_pop hpop hs : StackBounded s')
    | call nnn =>
      obtain ⟨s', hpush, rfl⟩ := execCall_eq_next h
      exact (stackBounded_push hpush hs hpc : StackBounded s')
    | _ => simp [footprint] at hi
  · obtain ⟨hsp, hstack⟩ := (execWith_changesOnly h).sameBut .stack hi
    intro k hk
    rw [hstack k]
    exact hs k (hsp ▸ hk)

theorem zextAddr_toNat (nnn : Addr12) : (zextAddr nnn).toNat = nnn.toNat := by
  have := nnn.isLt
  simp [zextAddr, wrap16]
  omega

theorem zextByte_toNat (w : Byte) : (zextByte w).toNat = w.toNat := by
  have := w.isLt
  simp [zextByte, wrap16]
  omega

theorem pcBounded_setPc_zextAddr (s : State) (nnn : Addr12) : PcBounded (s.setPc (zextAddr nnn)) := by
  have := nnn.isLt
  rw [PcBounded, State.setPc_pc, zextAddr_toNat]
  omega

theorem pcBounded_skipIf {s : State} (hpc : s.pc.toNat ≤ 0x1000) (c : Bool) : PcBounded (s.skipIf c) := by
  rw [PcBounded, toNat_pc_skipIf]
  split <;> omega

/-- From an advanced pc every rule's target is in range: the greatest is 0xFF + 0xFFF, of BNNN (R24, R124). -/
theorem execWith_pcBounded {r : Byte} {i : Instr} {s t : State} (h : execWith r i s = .next t) (h2 : 2 ≤ s.pc.toNat)
    (hpc : s.pc.toNat ≤ 0x1000) (hs : StackBounded s) : PcBounded t := by
  by_cases hi : .pc ∈ footprint i
  · cases i with
    | ret =>
      obtain ⟨w, s', hpop, rfl⟩ := execRet_eq_next h
      exact (popped_bounded hpop hs).trans (by decide)
    | call nnn =>
      obtain ⟨s', hpush, rfl⟩ := execCall_eq_next h
      exact pcBounded_setPc_zextAddr s' nnn
    | jp nnn => cases h; exact pcBounded_setPc_zextAddr s nnn
    | jpV0 nnn =>
      cases h
      have := nnn.isLt
      have := (s.getV 0).isLt
      rw [PcBounded, State.setPc_pc, BitVec.toNat_add, zextByte_toNat, zextAddr_toNat]
      omega
    | seImm | sneImm | seReg | sneReg => cases h; exact pcBounded_skipIf hpc _
    | skp | sknp => cases State.checkKey_eq_next h; exact pcBounded_skipIf hpc _
    | ldKey x =>
      obtain rfl | ⟨w, rfl⟩ := execLdKey_eq_next h
      · have hback : (s.pc - 2).toNat = s.pc.toNat - 2 := BitVec.toNat_sub_of_le h2
        rw [PcBounded, State.setPc_pc, hback]
        omega
      · exact hpc.trans (by decide)
    | _ => simp [footprint] at hi
  · rw [PcBounded, show t.pc = s.pc from (execWith_changesOnly h).sameBut .pc hi]
    omega

/-! ### The whole step -/

/-- The fetch's advance does not wrap, since no fetch is from 0xFFF or above (R101). -/
theorem State.toNat_pc_advance {s : State} (h : s.pc.toNat < 0xFFF) : s.advance.pc.toNat = s.pc.toNat + 2 := by
  show (s.pc.toNat + 2) % 65536 = s.pc.toNat + 2
  omega

/-- An instruction run on the advanced state keeps the invariant, whatever its random byte. -/
theorem execWith_advance_keeps_machineInv {r : Byte} {i : Instr} {s t : State} (hpc : s.pc.toNat < 0xFFF)
    (h : execWith r i s.advance = .next t) (hinv : MachineInv s) : MachineInv t := by
  obtain ⟨hmem, -, hstack⟩ := hinv
  have hadv := State.toNat_pc_advance hpc
  exact ⟨execWith_keeps_wf h hmem, execWith_pcBounded h (by omega) (by omega) hstack,
    execWith_keeps_stackBounded h (by omega) hstack⟩

/-- The step command ran the instruction that the fetch decoded. -/
theorem execWith_of_stepWith {r : Byte} {i : Instr} {s t : State} (hf : s.fetchDecode = .ok i)
    (h : stepWith r s = .next t) : execWith r i s.advance = .next t := by
  unfold stepWith at h
  rwa [hf] at h

/-- A part outside the footprint, other than pc, is the same after the whole step. -/
theorem stepWith_samePart {r : Byte} {i : Instr} {s t : State} {p : Part} (hf : s.fetchDecode = .ok i)
    (h : stepWith r s = .next t) (hp : p ∉ footprint i) (hpc : p ≠ .pc) : SamePart s t p :=
  have hadv : SamePart s s.advance p := sameBut_setPc s (s.pc + 2) p (by simpa using hpc)
  hadv.trans ((execWith_changesOnly (execWith_of_stepWith hf h)).sameBut p hp)

end Sys2Proof.Machine

/-! The statements of 10_state.md: reset, the invariant along every run, and who writes the stack and VF. -/

namespace Sys2Proof.Machine

/-! ### Reset -/

/-- The memory of a reset: FONT below 80 and 0x00 above (R35, R36). -/
theorem get_resetWith (font : Config.Font) (a : Nat) :
    (State.resetWith font).mem.get a = if h : a < 80 then font[a] else 0 := by
  show (Memory.putBytes [] 0 font.toList).get a = _
  have hlen : font.toList.length = 80 := Vector.length_toList
  by_cases h : a < 80
  · have := Memory.get_putBytes_inside font.toList [] 0 a (by omega) (by rw [hlen]; decide)
    simpa [h] using this
  · rw [Memory.get_putBytes_outside _ _ _ _ (by omega), dif_neg h, Memory.get_nil, Memory.initialByte, dif_neg h]

theorem resetWith_eq_setMem (font : Config.Font) :
    State.resetWith font = State.reset.setMem (State.resetWith font).mem := rfl

theorem wf_resetWith (font : Config.Font) : (State.resetWith font).mem.wf := Memory.wf_putBytes Memory.wf_nil 0 _

/-- Settles O1: the memory clauses are the reads of a reset memory, the others are read off the record. -/
theorem resetLeavesTheTableOfR35 : Obligations.ResetLeavesTheTableOfR35 := by
  intro font s c hc
  have hmem (a : Nat) : (resetCommand font s).mem.get a = if h : a < 80 then font[a] else 0 := get_resetWith font a
  refine ⟨resetCommand font s, ?_, fun r => ?_, rfl, rfl, rfl, fun k => ?_, rfl, rfl, Framebuffer.pixel_clear, fun k => ?_,
    fun a h => ?_, fun a h _ => ?_⟩
  · obtain rfl | rfl := hc <;> rfl
  · exact Vector.getElem_replicate _
  · exact Vector.getElem_replicate _
  · exact Vector.getElem_replicate _
  · rw [hmem, dif_pos h]
  · rw [hmem, dif_neg (by omega)]

/-- Settles O2: two canonical memories that read the same are the same list. -/
theorem resetIsTheResetOfTheDefaultFont : Obligations.ResetIsTheResetOfTheDefaultFont := by
  have hmem : (State.resetWith Config.font).mem = [] :=
    Memory.eq_of_get_eq (wf_resetWith Config.font) Memory.wf_nil fun a => get_resetWith Config.font a
  refine ⟨?_, rfl⟩
  rw [resetWith_eq_setMem, hmem]
  rfl

theorem machineInv_resetWith (font : Config.Font) : MachineInv (State.resetWith font) :=
  ⟨wf_resetWith font, (by decide : 0x200 ≤ 0x10FE), fun k hk => absurd hk (Nat.not_lt_zero k)⟩

/-- Settles O3: the reset of the default FONT is one of the resets. -/
theorem resetMeetsTheInvariant : Obligations.ResetMeetsTheInvariant := by
  refine ⟨?_, machineInv_resetWith⟩
  rw [← resetIsTheResetOfTheDefaultFont.1]
  exact machineInv_resetWith Config.font

/-! ### The invariant -/

/-- Settles O4: the step ran an instruction on the advanced state, with the free random byte. -/
theorem stepKeepsTheInvariant : Obligations.StepKeepsTheInvariant := by
  intro s t hinv h
  obtain ⟨i, hpc, -, hexec⟩ := step_eq_next h
  rw [← execWith_randomByte] at hexec
  exact execWith_advance_keeps_machineInv hpc hexec hinv

/-- The step command either keeps the state or ends in what the step answers. -/
theorem stepCommand_cases (r : Byte) (s : State) :
    (stepCommand r s).1 = s ∨ stepWith r s = .next (stepCommand r s).1 := by
  unfold stepCommand
  cases h : stepWith r s with
  | next t => exact .inr rfl
  | fault f => exact .inl rfl
  | refused e => exact .inl rfl

theorem machineInv_stepCommand (r : Byte) {s : State} (hinv : MachineInv s) : MachineInv (stepCommand r s).1 := by
  obtain hsame | hnext := stepCommand_cases r s
  · rwa [hsame]
  · obtain ⟨i, hpc, -, hexec⟩ := stepWith_eq_next hnext
    exact execWith_advance_keeps_machineInv hpc hexec hinv

theorem machineInv_loadCommand (bytes : List Byte) {s : State} (hinv : MachineInv s) :
    MachineInv (loadCommand bytes s).1 := by
  unfold loadCommand
  split
  · exact hinv
  · exact ⟨Memory.wf_putBytes hinv.1 _ bytes, hinv.2⟩

theorem machineInv_setKeyCommand (index : Int) (pressed : Bool) {s : State} (hinv : MachineInv s) :
    MachineInv (setKeyCommand index pressed s).1 := by
  unfold setKeyCommand
  split <;> exact hinv

/-- Settles O5: a reset establishes the invariant, load and step keep it, and the others touch none of its parts. -/
theorem everyCommandKeepsTheInvariant : Obligations.EveryCommandKeepsTheInvariant := by
  intro font c s hinv
  cases c with
  | init | reset => exact machineInv_resetWith font
  | load bytes => exact machineInv_loadCommand bytes hinv
  | step r => exact machineInv_stepCommand r hinv
  | tickTimers => exact hinv
  | setKey index pressed => exact machineInv_setKeyCommand index pressed hinv
  | readDisplay => exact hinv

/-- What every command keeps, every run of commands keeps. -/
theorem runCommands_induction {P : State → Prop} {font : Config.Font}
    (hcmd : ∀ c s, P s → P (runCommand font c s).1) (cs : List Command) {s : State} (hs : P s) :
    P (runCommands font cs s) := by
  induction cs generalizing s with
  | nil => exact hs
  | cons c cs ih => exact ih (hcmd c s hs)

/-- Settles O6: the invariant holds at reset and every command keeps it. -/
theorem reachableStatesMeetTheInvariant : Obligations.ReachableStatesMeetTheInvariant := by
  rintro s ⟨font, cs, rfl⟩
  exact runCommands_induction (everyCommandKeepsTheInvariant font) cs (machineInv_resetWith font)

/-! ### Who writes the stack and VF -/

/-- Settles O57: the stack is in the footprint of 2NNN and 00EE alone, and a pop leaves the entries. -/
theorem onlyCallAndRetMoveTheStack : Obligations.OnlyCallAndRetMoveTheStack := by
  intro r i s t hf h hcall
  by_cases hi : .stack ∈ footprint i
  · cases i with
    | ret =>
      obtain ⟨w, s', hpop, rfl⟩ := execRet_eq_next (execWith_of_stepWith hf h)
      refine ⟨fun k => ?_, fun hne => absurd rfl hne⟩
      rw [State.setPc_stack, State.pop_stack hpop, State.advance_eq, State.setPc_stack]
    | call nnn => exact absurd rfl (hcall nnn)
    | _ => simp [footprint] at hi
  · obtain ⟨hsp, hstack⟩ := stepWith_samePart hf h hi (by decide)
    exact ⟨hstack, fun _ => hsp⟩

/-- An instruction that does not write VF leaves it: its destination is another register (R31). -/
theorem execWith_keeps_vf {r : Byte} {i : Instr} {s t : State} (h : execWith r i s = .next t)
    (hvf : writesVF i = false) : t.getV 0xF = s.getV 0xF := by
  by_cases hi : .regs ∈ footprint i
  · cases i with
    | ldImm x | addImm x | ldReg x | orReg x | andReg x | xorReg x | ldFromDT x | rnd x =>
      cases h
      exact State.getV_setV_other s _ (Ne.symm (by simpa [writesVF] using hvf))
    | ldKey x =>
      obtain rfl | ⟨w, rfl⟩ := execLdKey_eq_next h
      · rfl
      · exact State.getV_setV_other s _ (Ne.symm (by simpa [writesVF] using hvf))
    | loadRegs x =>
      cases State.checkData_eq_next h
      have hx : x ≠ 0xF := by simpa [writesVF] using hvf
      have hne : x.toNat ≠ 15 := fun e => hx (BitVec.eq_of_toNat_eq e)
      have hlt := x.isLt
      have hlow : ¬ (0xF : Reg).toNat ≤ x.toNat := by
        show ¬ 15 ≤ x.toNat
        omega
      rw [State.getV_loadV _ _ _ hlt, if_neg hlow]
    | addReg | subReg | shr | subnReg | shl | drw => simp [writesVF] at hvf
    | _ => simp [footprint] at hi
  · exact (execWith_changesOnly h).sameBut .regs hi 0xF

/-- Settles O59: neither the fetch's advance nor the instruction writes VF. -/
theorem vfKeepsItsValueOtherwise : Obligations.VfKeepsItsValueOtherwise :=
  fun _ _ s _ hf h hvf =>
    (execWith_keeps_vf (execWith_of_stepWith hf h) hvf).trans (State.getV_setPc s (s.pc + 2) 0xF)

end Sys2Proof.Machine

/-! The statements of 20_memory.md: the bound check of a data access, what a store leaves to the next fetch, and who writes
memory. -/

namespace Sys2Proof.Machine

/-! ### The data bound check -/

/-- The execute stage checks the instruction's data accesses and then completes, or the instruction has none and raises no
data fault (R51, R66). -/
theorem exec_dataCheck (i : Instr) (s : State) :
    (∃ t, exec i s = s.checkData i (dataAccesses i) (.next t)) ∨
    (dataAccesses i = 0 ∧ ∀ pc w a, exec i s ≠ .fault (.dataAddressFault pc w a)) := by
  cases i with
  | ldB | storeRegs | loadRegs | drw => exact .inl ⟨_, rfl⟩
  | ret | call | ldKey =>
    refine .inr ⟨rfl, fun _ _ _ => ?_⟩
    simp only [exec, execRet, execCall, execLdKey]
    split <;> nofun
  | skp x | sknp x =>
    refine .inr ⟨rfl, fun _ _ _ => ?_⟩
    show s.checkKey _ _ _ ≠ _
    obtain ⟨-, hk⟩ | ⟨-, hk⟩ := s.checkKey_cases _ (s.getV x) _ <;> rw [hk] <;> nofun
  | _ => exact .inr ⟨rfl, nofun⟩

/-- Settles O41: the check covers I to I + n - 1, so it fails exactly when one of them is 4096 or more, and the lowest such
address is max(I, 4096). -/
theorem dataAccessOutsideMemoryFaults : Obligations.DataAccessOutsideMemoryFaults := by
  intro i s
  obtain ⟨t, hcheck⟩ | ⟨hnone, hne⟩ := exec_dataCheck i s
  · refine ⟨fun k hk hout hlow => ?_, fun hin pc w a => ?_⟩
    · have hlowest : max s.i.toNat 4096 = s.i.toNat + k := by
        cases k with
        | zero => omega
        | succ k => have := hlow k (by omega); omega
      rw [hcheck, State.checkData_fail _ _ _ _ (by omega) (by omega), hlowest]
      rfl
    · have hfit : dataAccesses i = 0 ∨ s.i.toNat + dataAccesses i ≤ 4096 := by
        by_cases h0 : dataAccesses i = 0
        · exact .inl h0
        · have := hin (dataAccesses i - 1) (by omega)
          omega
      rw [hcheck, State.checkData_pass _ _ _ _ hfit]
      nofun
  · exact ⟨fun k hk => absurd hk (by omega), fun _ => hne⟩

/-! ### The stores, when they complete -/

theorem State.inside_of_checkData_eq_next {s t : State} {i : Instr} {n : Nat} {k : Result} (hn : 0 < n)
    (h : s.checkData i n k = .next t) : s.i.toNat + n ≤ 4096 := by
  obtain ⟨hfit, -⟩ | ⟨-, -, hf⟩ := s.checkData_cases i n k
  · omega
  · rw [hf] at h
    cases h

theorem execLdB_eq_next {s t : State} {x : Reg} (h : exec (.ldB x) s = .next t) :
    s.i.toNat + 3 ≤ 4096 ∧ t = s.setMem (s.mem.putBytes s.i.toNat (bcdDigits (s.getV x))) := by
  have hin := State.inside_of_checkData_eq_next (by decide) h
  cases State.checkData_eq_next h
  exact ⟨hin, rfl⟩

theorem execStoreRegs_eq_next {s t : State} {x : Reg} (h : exec (.storeRegs x) s = .next t) :
    s.i.toNat + (x.toNat + 1) ≤ 4096 ∧ t = s.setMem (s.mem.putBytes s.i.toNat (s.regsUpTo x)) := by
  have hin := State.inside_of_checkData_eq_next (by omega) h
  cases State.checkData_eq_next h
  exact ⟨hin, rfl⟩

theorem loadCommand_eq_ok {s t : State} {bytes : List Byte} (h : loadCommand bytes s = (t, .ok)) :
    bytes.length ≤ 3584 ∧ t = s.setMem (s.mem.putBytes 0x200 bytes) := by
  unfold loadCommand at h
  split at h
  · cases h
  · next hlen =>
    cases h
    exact ⟨Nat.le_of_not_lt hlen, rfl⟩

/-! ### The next fetch -/

/-- The high byte of the word at a is the byte at a (R52). -/
theorem Memory.word_toNat_div (m : Memory) (a : Nat) : (m.word a).toNat / 256 = (m.get a).toNat := by
  have := (m.get (a + 1)).isLt
  rw [Memory.word, wordOfBytes_toNat]
  omega

/-- The low byte of the word at a is the byte at a + 1 (R52). -/
theorem Memory.word_toNat_mod (m : Memory) (a : Nat) : (m.word a).toNat % 256 = (m.get (a + 1)).toNat := by
  have := (m.get (a + 1)).isLt
  rw [Memory.word, wordOfBytes_toNat]
  omega

theorem State.fetch_eq_word {s : State} (hpc : s.pc.toNat < 0xFFF) : s.fetch = .ok (s.mem.word s.pc.toNat) := by
  rw [State.fetch, if_neg (by omega)]

/-- The fetch reads memory as it is, so a store of bytes that fits is seen by it (D28). -/
theorem fetchesAfterStore_putBytes {s : State} {base : Nat} {bs : List Byte} {value : Nat → Nat}
    (hpc : s.pc.toNat < 0xFFF) (hfit : base + bs.length ≤ 4096)
    (hv : ∀ k (h : k < bs.length), bs[k].toNat = value k) :
    FetchesAfterStore s (s.setMem (s.mem.putBytes base bs)) base bs.length value := by
  have hstored (a : Nat) := holdsAfterStore_putBytes s.mem base a bs value hfit hv
  refine ⟨_, rfl, State.fetch_eq_word hpc, ?_, ?_⟩
  · rw [Memory.word_toNat_div]
    exact hstored _
  · rw [Memory.word_toNat_mod]
    exact hstored _

/-- Digit k of the three is the decimal digit of weight 10 ^ (2 - k) (R173). -/
theorem getElem_bcdDigits_toNat (w : Byte) (k : Nat) (h : k < (bcdDigits w).length) :
    (bcdDigits w)[k].toNat = w.toNat / 10 ^ (2 - k) % 10 := by
  have := w.isLt
  obtain rfl | rfl | rfl : k = 0 ∨ k = 1 ∨ k = 2 := by
    change k < 3 at h
    omega
  all_goals
    simp [bcdDigits, wrap8]
    omega

/-- Settles O42: each of the three is a store of bytes that fits, FX55 of registers, FX33 of digits and load of its payload. -/
theorem storeIsSeenByTheNextFetch : Obligations.StoreIsSeenByTheNextFetch := by
  intro x s hpc
  refine ⟨fun t h => ?_, fun t h => ?_, fun font bytes t h => ?_⟩
  · obtain ⟨hin, rfl⟩ := execStoreRegs_eq_next h
    rw [← State.length_regsUpTo s x] at hin ⊢
    exact fetchesAfterStore_putBytes hpc hin fun k hk => by rw [State.getElem_regsUpTo]
  · obtain ⟨hin, rfl⟩ := execLdB_eq_next h
    exact fetchesAfterStore_putBytes hpc hin (getElem_bcdDigits_toNat _)
  · obtain ⟨hlen, rfl⟩ := loadCommand_eq_ok h
    exact fetchesAfterStore_putBytes hpc (by omega) fun k hk => by rw [List.getD_eq_getElem _ _ hk]

/-! ### Who writes memory -/

theorem memorySameOutside_putBytes (s : State) (base : Nat) (bs : List Byte) :
    MemorySameOutside s (s.setMem (s.mem.putBytes base bs)) base bs.length :=
  fun a h => Memory.get_putBytes_outside bs s.mem base a h

/-- Settles O58: memory is in the footprint of FX33 and FX55 alone, and each stores its own bytes from I up. -/
theorem onlyBcdAndStoreWriteMemory : Obligations.OnlyBcdAndStoreWriteMemory := by
  intro r i s t hf h
  have hexec := execWith_of_stepWith hf h
  refine ⟨fun hldB hstore => ?_, ?_, ?_⟩
  · have hi : .memory ∉ footprint i := by
      cases i with
      | ldB x => exact absurd rfl (hldB x)
      | storeRegs x => exact absurd rfl (hstore x)
      | _ => simp [footprint]
    exact stepWith_samePart hf h hi (by decide)
  · rintro x rfl
    obtain ⟨-, rfl⟩ := execLdB_eq_next hexec
    exact memorySameOutside_putBytes s.advance _ (bcdDigits (s.advance.getV x))
  · rintro x rfl
    obtain ⟨-, rfl⟩ := execStoreRegs_eq_next hexec
    rw [← State.length_regsUpTo s.advance x]
    exact memorySameOutside_putBytes s.advance _ _

end Sys2Proof.Machine

/-! The statements of 30_encoding.md: the two round trips of the encoding, the decoder against the table of R75, and the illegal
words of R77. -/

namespace Sys2Proof

/-! ### From an instruction to its word and back -/

/-- Each format of R72 puts the fields where the decoder of its family reads them (R71, R74). -/
theorem decode_encode (i : Instr) : decode (encode i) = .ok i := by
  cases i with
  | nop | cls | ret => rfl
  | jp | call | ldI | jpV0 => simp [encode, decode, fieldOp_encodeA, fieldNNN_encodeA]
  | seImm | sneImm | ldImm | addImm | rnd =>
    simp [encode, decode, fieldOp_encodeXI, fieldX_encodeXI, fieldNN_encodeXI]
  | seReg | ldReg | orReg | andReg | xorReg | addReg | subReg | shr | subnReg | shl | sneReg | drw =>
    simp [encode, decode, decodeFamily5, decodeFamily8, decodeFamily9, fieldOp_wordOfNibbles, fieldX_wordOfNibbles,
      fieldY_wordOfNibbles, fieldN_wordOfNibbles]
  | skp | sknp | ldFromDT | ldKey | ldDT | ldST | addI | ldF | ldB | storeRegs | loadRegs =>
    simp [encode, decode, decodeFamilyE, decodeFamilyF, fieldOp_encodeXI, fieldX_encodeXI, fieldNN_encodeXI]

/-- Settles O7: on words by the format of each instruction, on bytes because a word's two bytes make the word again. -/
theorem decodeOfEncodeIsTheInstruction : Obligations.DecodeOfEncodeIsTheInstruction := fun i =>
  ⟨decode_encode i, by simp [encodeBytes, decodeBytes, decode_encode]⟩

/-! ### A word rebuilt from its nibble 1 and the fields its decoding reads -/

section
variable {w : Word} {op : Nat} (hop : (fieldOp w).toNat = op)
include hop

theorem encodeA_of_fieldOp : encodeA op (fieldNNN w) = w := hop ▸ encodeA_fields w

theorem encodeXI_of_fieldOp : encodeXI op (fieldX w) (fieldNN w) = w := hop ▸ encodeXI_fields w

theorem encodeXI_of_fieldNN {nn : Byte} (hnn : (fieldNN w).toNat = nn.toNat) : encodeXI op (fieldX w) nn = w :=
  BitVec.eq_of_toNat_eq hnn ▸ encodeXI_of_fieldOp hop

theorem wordOfNibbles_of_fieldOp : wordOfNibbles op (fieldX w) (fieldY w) (fieldN w) = w := hop ▸ wordOfNibbles_fields w

theorem wordOfNibbles_of_fieldN {n : Nibble} (hn : (fieldN w).toNat = n.toNat) :
    wordOfNibbles op (fieldX w) (fieldY w) n = w :=
  BitVec.eq_of_toNat_eq hn ▸ wordOfNibbles_of_fieldOp hop

end

/-! ### What the decoder can answer -/

/-- The answers a decoder may give for w: an instruction whose word is w, or the rejection that names w (R76, R77). -/
def AnswersFor (w : Word) : Except DecodeError Instr → Prop
  | .ok i => encode i = w
  | .error e => e = .illegalWord w

/-- Every word is answered so, in each family of R74. -/
theorem answersFor_decode (w : Word) : AnswersFor w (decode w) := by
  have := (fieldOp w).isLt
  unfold decode
  split
  case h_1 =>
    unfold decodeFamily0
    split
    on_goal -1 => rfl
    all_goals next hw => exact (BitVec.eq_of_toNat_eq hw).symm
  case h_2 hop | h_3 hop | h_11 hop | h_12 hop => exact encodeA_of_fieldOp hop
  case h_4 hop | h_5 hop | h_7 hop | h_8 hop | h_13 hop => exact encodeXI_of_fieldOp hop
  case h_14 hop => exact wordOfNibbles_of_fieldOp hop
  case h_6 hop | h_9 hop | h_10 hop =>
    simp only [decodeFamily5, decodeFamily8, decodeFamily9]
    split
    on_goal -1 => rfl
    all_goals next hn => exact wordOfNibbles_of_fieldN hop hn
  case h_15 hop =>
    unfold decodeFamilyE
    split
    on_goal -1 => rfl
    all_goals next hnn => exact encodeXI_of_fieldNN hop hnn
  case h_16 =>
    have hop : (fieldOp w).toNat = 0xF := by grind
    unfold decodeFamilyF
    split
    on_goal -1 => rfl
    all_goals next hnn => exact encodeXI_of_fieldNN hop hnn

theorem encode_of_decode {w : Word} {i : Instr} (h : decode w = .ok i) : encode i = w := by
  have hans := answersFor_decode w
  rwa [h] at hans

theorem decode_eq_error {w : Word} {e : DecodeError} (h : decode w = .error e) : e = .illegalWord w := by
  have hans := answersFor_decode w
  rwa [h] at hans

/-- Settles O8. -/
theorem encodeOfDecodeIsTheWord : Obligations.EncodeOfDecodeIsTheWord := fun _ _ h => encode_of_decode h

/-! ### The decoder against the table of R75 -/

/-- The row of R75 the decoder reads w as, by its mnemonic. -/
def decodedMnemonic (w : Word) : Option String := (decode w).toOption.map Instr.mnemonic

theorem decodedMnemonic_eq_some {w : Word} {m : String} (h : decodedMnemonic w = some m) :
    ∃ i, decode w = .ok i ∧ i.mnemonic = m := by
  unfold decodedMnemonic at h
  cases hd : decode w with
  | error e => simp [hd, Except.toOption] at h
  | ok i => exact ⟨i, rfl, by simpa [hd, Except.toOption] using h⟩

/-- Only the bits that R74 selects on in a word's family decide its row: nibble 1, and with it the whole word, N, NN or
nothing. -/
theorem decodedMnemonic_congr {w p : Word} (hop : fieldOp w = fieldOp p) (hw : fieldOp p = 0x0 → w = p)
    (hn : fieldOp p ∈ [0x5, 0x8, 0x9] → fieldN w = fieldN p)
    (hnn : fieldOp p ∈ [0xE, 0xF] → fieldNN w = fieldNN p) : decodedMnemonic w = decodedMnemonic p := by
  have := (fieldOp p).isLt
  unfold decodedMnemonic decode
  rw [hop]
  split
  case h_1 hp => rw [hw (BitVec.eq_of_toNat_eq hp)]
  case h_6 hp | h_9 hp | h_10 hp =>
    simp only [decodeFamily5, decodeFamily8, decodeFamily9]
    rw [hn (by simp [← BitVec.toNat_inj, hp])]
    split <;> rfl
  case h_15 hp =>
    unfold decodeFamilyE
    rw [hnn (by simp [← BitVec.toNat_inj, hp])]
    split <;> rfl
  case h_16 =>
    have hp : (fieldOp p).toNat = 0xF := by grind
    unfold decodeFamilyF
    rw [hnn (by simp [← BitVec.toNat_inj, hp])]
    split <;> rfl
  all_goals rfl

/-- In an accepted word a field that the mask covers whole is the pattern's (R75). -/
theorem OpcodeRow.extractLsb'_of_accepts {r : OpcodeRow} {w : Word} (h : r.accepts w = true) {lo n : Nat}
    (hmask : r.mask.extractLsb' lo n = BitVec.allOnes n) : w.extractLsb' lo n = r.pattern.extractLsb' lo n := by
  rw [OpcodeRow.accepts, beq_iff_eq] at h
  rw [← h, BitVec.extractLsb'_and, hmask, BitVec.and_allOnes]

/-- Every mask of R75 covers the bits that R74 selects on in its row's family. -/
theorem mask_covers_selection : ∀ r ∈ opcodeRows, fieldOp r.mask = 0xF ∧
    (fieldOp r.pattern = 0x0 → r.mask = 0xFFFF) ∧ (fieldOp r.pattern ∈ [0x5, 0x8, 0x9] → fieldN r.mask = 0xF) ∧
    (fieldOp r.pattern ∈ [0xE, 0xF] → fieldNN r.mask = 0xFF) := by
  decide

theorem decodedMnemonic_pattern : ∀ r ∈ opcodeRows, decodedMnemonic r.pattern = some r.mnemonic := by
  decide

theorem decodedMnemonic_of_accepts {r : OpcodeRow} {w : Word} (hr : r ∈ opcodeRows) (h : r.accepts w = true) :
    decodedMnemonic w = some r.mnemonic := by
  obtain ⟨hop, hfull, hn, hnn⟩ := mask_covers_selection r hr
  have hw (hp : fieldOp r.pattern = 0x0) : w = r.pattern := by
    rw [OpcodeRow.accepts, beq_iff_eq, hfull hp] at h
    exact (BitVec.and_allOnes).symm.trans h
  rw [← decodedMnemonic_pattern r hr]
  exact decodedMnemonic_congr (OpcodeRow.extractLsb'_of_accepts h hop) hw
    (fun hp => OpcodeRow.extractLsb'_of_accepts h (hn hp)) (fun hp => OpcodeRow.extractLsb'_of_accepts h (hnn hp))

open Laws.EncodesItsRow in
theorem encodesItsRow (i : Instr) : Statement i := by
  cases i
  exacts [nop, cls, ret, jp _, call _, seImm _ _, sneImm _ _, seReg _ _, ldImm _ _, addImm _ _, ldReg _ _, orReg _ _,
    andReg _ _, xorReg _ _, addReg _ _, subReg _ _, shr _ _, subnReg _ _, shl _ _, sneReg _ _, ldI _, jpV0 _, rnd _ _,
    drw _ _ _, skp _, sknp _, ldFromDT _, ldKey _, ldDT _, ldST _, addI _, ldF _, ldB _, storeRegs _, loadRegs _]

theorem legalWord_of_decode {w : Word} {i : Instr} (h : decode w = .ok i) : legalWord w = true := by
  obtain ⟨r, hr, -, hacc⟩ := encodesItsRow i
  rw [encode_of_decode h] at hacc
  exact List.any_eq_true.mpr ⟨r, hr, hacc⟩

theorem decode_of_not_legalWord {w : Word} (h : legalWord w = false) : decode w = .error (.illegalWord w) := by
  cases hd : decode w with
  | ok i => exact absurd (legalWord_of_decode hd) (Bool.eq_false_iff.mp h)
  | error e => rw [decode_eq_error hd]

/-- Settles O9: an accepted word has the row's pattern in the bits the decoder selects on, and a word that decodes is the word of
its instruction, which its own row accepts. -/
theorem decoderFollowsTheOpcodeTable : Obligations.DecoderFollowsTheOpcodeTable :=
  ⟨fun _ _ hr h => decodedMnemonic_eq_some (decodedMnemonic_of_accepts hr h), fun _ => decode_of_not_legalWord⟩

/-- R76: the patterns of two rows of R75 differ in a bit that both masks cover. -/
theorem eq_of_pattern_and_mask_eq : ∀ r ∈ opcodeRows, ∀ q ∈ opcodeRows,
    r.pattern &&& q.mask = q.pattern &&& r.mask → r = q := by
  decide

/-- Settles O10: the bits of the word that both masks cover would be those of both patterns. -/
theorem noWordMatchesTwoRows : Obligations.NoWordMatchesTwoRows := by
  intro w r hr q hq h h'
  rw [OpcodeRow.accepts, beq_iff_eq] at h h'
  apply eq_of_pattern_and_mask_eq r hr q hq
  calc r.pattern &&& q.mask = w &&& r.mask &&& q.mask := by rw [h]
    _ = w &&& q.mask &&& r.mask := by rw [BitVec.and_assoc, BitVec.and_comm r.mask, BitVec.and_assoc]
    _ = q.pattern &&& r.mask := by rw [h']

/-! ### The illegal words of R77, family by family -/

section
variable {w : Word}

theorem decodeFamily0_illegal (hnop : w ≠ 0x0000) (hcls : w ≠ 0x00E0) (hret : w ≠ 0x00EE) :
    decodeFamily0 w = .error (.illegalWord w) := by
  rw [Ne, ← BitVec.toNat_inj] at hnop hcls hret
  unfold decodeFamily0
  split <;> trivial

theorem decodeFamily5_illegal (hn : (fieldN w).toNat ≠ 0) : decodeFamily5 w = .error (.illegalWord w) := by
  unfold decodeFamily5
  split
  · contradiction
  · rfl

theorem decodeFamily8_illegal (hn : (fieldN w).toNat ∈ [8, 9, 0xA, 0xB, 0xC, 0xD, 0xF]) :
    decodeFamily8 w = .error (.illegalWord w) := by
  unfold decodeFamily8
  split <;> simp_all

theorem decodeFamily9_illegal (hn : (fieldN w).toNat ≠ 0) : decodeFamily9 w = .error (.illegalWord w) := by
  unfold decodeFamily9
  split
  · contradiction
  · rfl

theorem decodeFamilyE_illegal (hnn : (fieldNN w).toNat ∉ [0x9E, 0xA1]) : decodeFamilyE w = .error (.illegalWord w) := by
  unfold decodeFamilyE
  split <;> simp_all

theorem decodeFamilyF_illegal
    (hnn : (fieldNN w).toNat ∉ [0x07, 0x0A, 0x15, 0x18, 0x1E, 0x29, 0x33, 0x55, 0x65]) :
    decodeFamilyF w = .error (.illegalWord w) := by
  unfold decodeFamilyF
  split <;> simp_all

end

/-- Settles O11: the decoder run on each of the seven words. -/
theorem writtenOutWordsDecode : Obligations.WrittenOutWordsDecode := ⟨rfl, rfl, rfl, rfl, rfl, rfl, rfl⟩

end Sys2Proof

namespace Sys2Proof.Machine

/-- A step that fetches a word the decoder rejects raises DecodeFault with that word (R251). -/
theorem step_of_decode_eq_error {s : State} {e : DecodeError} (hpc : s.pc.toNat < 0xFFF)
    (hd : decode (s.mem.word s.pc.toNat) = .error e) : step s = .fault (.decodeFault s.pc (s.mem.word s.pc.toNat)) := by
  rw [step, State.fetchDecode, State.fetch_eq_word hpc]
  simp only [hd, raise]

/-- Settles O12: nibble 1 sends the word to its family's decoder, which rejects it. -/
theorem illegalWordsRaiseDecodeFault : Obligations.IllegalWordsRaiseDecodeFault := by
  rintro s w hpc rfl hill
  refine step_of_decode_eq_error (e := .illegalWord (s.mem.word s.pc.toNat)) hpc ?_
  generalize s.mem.word s.pc.toNat = w at hill ⊢
  have h0 : w.toNat ≤ 0x0FFF → w.toNat / 4096 = 0 := by omega
  simp only [← fieldOp_toNat, ← fieldN_toNat, ← fieldNN_toNat] at hill h0
  unfold decode
  rcases hill with ⟨hle, hnop, hcls, hret⟩ | ⟨hop, hn⟩ | ⟨hop, hn⟩ | ⟨hop, hn⟩ | ⟨hop, hnn⟩ | ⟨hop, hnn⟩
  · rw [h0 hle]
    exact decodeFamily0_illegal hnop hcls hret
  · rw [hop]
    exact decodeFamily5_illegal hn
  · rw [hop]
    exact decodeFamily8_illegal hn
  · rw [hop]
    exact decodeFamily9_illegal hn
  · rw [hop]
    exact decodeFamilyE_illegal hnn
  · rw [hop]
    exact decodeFamilyF_illegal hnn

end Sys2Proof.Machine

/-! The statements of 40_engine.md: the step as fetch, decode and execute, how it ends, and who moves the timers and the keys. -/

namespace Sys2Proof.Machine

/-! ### The step from what the fetch and decode answer -/

section
variable {s : State} {i : Instr} {f : Fault}

theorem step_of_fetchDecode_ok (hf : s.fetchDecode = .ok i) : step s = exec i s.advance := by
  rw [step, hf]

theorem step_of_fetchDecode_error (hf : s.fetchDecode = .error f) : step s = .fault f := by
  simp only [step, hf, raise]

theorem stepWith_of_fetchDecode_ok (r : Byte) (hf : s.fetchDecode = .ok i) : stepWith r s = execWith r i s.advance := by
  rw [stepWith, hf]

theorem stepWith_of_fetchDecode_error (r : Byte) (hf : s.fetchDecode = .error f) : stepWith r s = .fault f := by
  simp only [stepWith, hf, raise]

end

theorem State.fetchDecode_of_fetch_bound {s : State} (hpc : 0xFFF ≤ s.pc.toNat) :
    s.fetchDecode = .error (.fetchAddressFault s.pc) := by
  rw [State.fetchDecode, State.fetch, if_pos hpc]

theorem Memory.eq_word_of_toNat_eq {m : Memory} {a : Nat} {w : Word}
    (h : w.toNat = (m.get a).toNat * 256 + (m.get (a + 1)).toNat) : w = m.word a :=
  BitVec.eq_of_toNat_eq (h.trans (wordOfBytes_toNat _ _).symm)

theorem State.advance_eq_wrap16 (s : State) : s.advance = { s with pc := wrap16 (s.pc.toNat + 2) } := by
  have hpc : s.pc + 2 = wrap16 (s.pc.toNat + 2) := by simp [wrap16, BitVec.ofNat_add]
  rw [State.advance, State.setPc, hpc]

/-- Settles O13: the fetch reads the two bytes as one word, which the decoder is given. -/
theorem stepRunsTheDecodedInstruction : Obligations.StepRunsTheDecodedInstruction := by
  intro s w i hpc hw hd
  rw [Memory.eq_word_of_toNat_eq hw] at hd
  rw [step_of_fetchDecode_ok (State.fetchDecode_ok hpc hd), State.advance_eq_wrap16]

/-! ### How an instruction ends (R107) -/

/-- The execute stage completes or raises the fault that R253 to R256 give the instruction. -/
theorem exec_cases (i : Instr) (s : State) :
    (∃ t, exec i s = .next t) ∨ ∃ f, exec i s = .fault f ∧ executeFault i s s.insnAddr (encode i) f := by
  cases i with
  | ret =>
    by_cases hsp : s.sp.val = 0
    · exact .inr ⟨_, by rw [exec, execRet, State.pop_of_empty s hsp]; rfl, hsp, rfl⟩
    · exact .inl ⟨_, by rw [exec, execRet, State.pop_of_pos s (by omega)]⟩
  | call nnn =>
    by_cases hsp : s.sp.val < 16
    · exact .inl ⟨_, by rw [exec, execCall, State.push_of_lt s s.pc hsp]⟩
    · have hfull : s.sp.val = 16 := by omega
      exact .inr ⟨_, by rw [exec, execCall, State.push_of_full s s.pc hfull]; rfl, hfull, rfl⟩
  | skp x | sknp x =>
    obtain ⟨-, hk⟩ | ⟨hv, hk⟩ := s.checkKey_cases _ (s.getV x) _
    · exact .inl ⟨_, hk⟩
    · exact .inr ⟨_, hk, hv, rfl⟩
  | ldB x | storeRegs x | loadRegs x =>
    obtain ⟨-, hk⟩ | ⟨-, hout, hk⟩ := s.checkData_cases _ _ _
    · exact .inl ⟨_, hk⟩
    · exact .inr ⟨_, hk, by omega, rfl⟩
  | drw x y n =>
    obtain ⟨-, hk⟩ | ⟨hn, hout, hk⟩ := s.checkData_cases _ _ _
    · exact .inl ⟨_, hk⟩
    · exact .inr ⟨_, hk, hn, by omega, rfl⟩
  | ldKey x =>
    left
    cases hkey : s.lowestKey with
    | none => exact ⟨_, by rw [exec, execLdKey, hkey]⟩
    | some k => exact ⟨_, by rw [exec, execLdKey, hkey]⟩
  | _ => exact .inl ⟨_, rfl⟩

theorem exec_ne_refused (i : Instr) (s : State) (r : Refusal) : exec i s ≠ .refused r := by
  obtain ⟨t, h⟩ | ⟨f, h, -⟩ := exec_cases i s <;> rw [h] <;> nofun

/-- Settles O16: every instruction completes or faults, and a failed fetch or decode is a fault. -/
theorem noStepIsRefused : Obligations.NoStepIsRefused := by
  intro i s r
  refine ⟨exec_ne_refused i s r, ?_⟩
  cases hf : s.fetchDecode with
  | error f => rw [step_of_fetchDecode_error hf]; nofun
  | ok j => rw [step_of_fetchDecode_ok hf]; exact exec_ne_refused j s.advance r

/-- The address fault of the fetch is none of the faults of the execute stage. -/
theorem not_executeFault_fetchAddressFault (i : Instr) (s : State) (pc w p : Word) :
    ¬ executeFault i s pc w (.fetchAddressFault p) := by
  cases i <;> simp [executeFault]

theorem exec_ne_fetchAddressFault (i : Instr) (s : State) (p : Word) : exec i s ≠ .fault (.fetchAddressFault p) := by
  intro h
  obtain ⟨t, ht⟩ | ⟨f, hf, hexec⟩ := exec_cases i s
  · rw [ht] at h
    cases h
  · rw [hf] at h
    cases h
    exact not_executeFault_fetchAddressFault _ _ _ _ _ hexec

/-- Settles O14: the bound is checked before memory is read, and below it only the decoder and the instruction can fault. -/
theorem fetchBoundIs0xFFF : Obligations.FetchBoundIs0xFFF := by
  refine fun s => ⟨fun hpc m => ?_, fun hpc p => ?_⟩
  · exact step_of_fetchDecode_error (State.fetchDecode_of_fetch_bound (s := { s with mem := m }) hpc)
  · obtain ⟨hbound, -⟩ | ⟨-, -, hf⟩ | ⟨-, i, -, hf⟩ := s.fetchDecode_cases
    · omega
    · rw [step_of_fetchDecode_error hf]
      nofun
    · rw [step_of_fetchDecode_ok hf]
      exact exec_ne_fetchAddressFault i s.advance p

/-! ### A command that faults -/

section
variable {s : State} {f : Fault}

theorem stepCommand_of_fault {r : Byte} (h : (stepCommand r s).2 = .fault f) : (stepCommand r s).1 = s := by
  obtain hsame | hnext := stepCommand_cases r s
  · exact hsame
  · rw [stepCommand, hnext] at h
    cases h

theorem loadCommand_of_fault {bytes : List Byte} (h : (loadCommand bytes s).2 = .fault f) :
    (loadCommand bytes s).1 = s := by
  unfold loadCommand at h ⊢
  split at h
  · next hlen => rw [if_pos hlen]
  · cases h

theorem setKeyCommand_of_fault {index : Int} {pressed : Bool} (h : (setKeyCommand index pressed s).2 = .fault f) :
    (setKeyCommand index pressed s).1 = s := by
  unfold setKeyCommand at h ⊢
  split at h
  · cases h
  · next hindex => rw [dif_neg hindex]

end

/-- Settles O17: only step, load and set_key report a fault, and each then answers the state it was given. -/
theorem faultedCommandChangesNothing : Obligations.FaultedCommandChangesNothing := by
  intro font c s f h
  cases c with
  | load bytes => exact loadCommand_of_fault h
  | step r => exact stepCommand_of_fault h
  | setKey index pressed => exact setKeyCommand_of_fault h
  | init | reset | tickTimers | readDisplay => cases h

/-! ### Who reads the random byte -/

/-- Settles O19: the fetch and decode read no byte, and the instruction they find is not CXNN. -/
theorem onlyCxnnReadsTheRandomByte : Obligations.OnlyCxnnReadsTheRandomByte := by
  intro s r q hrnd
  cases hf : s.fetchDecode with
  | error f => rw [stepWith_of_fetchDecode_error r hf, stepWith_of_fetchDecode_error q hf]
  | ok i =>
    have hi : ∀ x nn, i ≠ .rnd x nn := fun x nn e => hrnd x nn (hf.trans (congrArg _ e))
    rw [stepWith_of_fetchDecode_ok r hf, stepWith_of_fetchDecode_ok q hf, execWith_of_not_rnd r _ hi,
      execWith_of_not_rnd q _ hi]

/-! ### Who moves the timers and the keys -/

/-- The parts of the state a command may write: for a step every part, for a reset every part of the block. -/
def commandFootprint : Command → List Part
  | .init | .reset => [.regs, .pc, .index, .stack, .delay, .sound, .display, .keys, .memory]
  | .step _ => [.regs, .pc, .index, .stack, .delay, .sound, .display, .keys, .memory, .draws]
  | .load _ => [.memory]
  | .tickTimers => [.delay, .sound]
  | .setKey _ _ => [.keys]
  | .readDisplay => []

theorem changesOnly_loadCommand (bytes : List Byte) (s : State) : ChangesOnly s (loadCommand bytes s).1 [.memory] := by
  unfold loadCommand
  split
  · exact (ChangesOnly.refl s).mono (List.nil_subset _)
  · exact changesOnly_setMem s _

theorem changesOnly_setKeyCommand (index : Int) (pressed : Bool) (s : State) :
    ChangesOnly s (setKeyCommand index pressed s).1 [.keys] := by
  unfold setKeyCommand
  split
  · exact ⟨fun p hp => by cases p <;> simp_all [SamePart, State.getV], fun _ => rfl⟩
  · exact (ChangesOnly.refl s).mono (List.nil_subset _)

/-- A command changes its footprint only. -/
theorem runCommand_changesOnly (font : Config.Font) (c : Command) (s : State) :
    ChangesOnly s (runCommand font c s).1 (commandFootprint c) := by
  cases c with
  | init | reset =>
    refine ⟨fun p hp => ?_, fun hp => by simp [commandFootprint] at hp⟩
    cases p with
    | draws => rfl
    | _ => simp [commandFootprint] at hp
  | step r => exact ⟨fun p hp => by cases p <;> simp [commandFootprint] at hp, fun hp => by simp [commandFootprint] at hp⟩
  | load bytes => exact changesOnly_loadCommand bytes s
  | tickTimers => exact (changesOnly_setDT s _).trans (changesOnly_setST _ _)
  | setKey index pressed => exact changesOnly_setKeyCommand index pressed s
  | readDisplay => exact .refl s

theorem keys_not_mem_footprint (i : Instr) : .keys ∉ footprint i := by
  cases i <;> simp [footprint]

theorem delay_mem_footprint {i : Instr} (h : .delay ∈ footprint i) : ∃ x, i = .ldDT x := by
  cases i with
  | ldDT x => exact ⟨x, rfl⟩
  | _ => simp [footprint] at h

theorem sound_mem_footprint {i : Instr} (h : .sound ∈ footprint i) : ∃ x, i = .ldST x := by
  cases i with
  | ldST x => exact ⟨x, rfl⟩
  | _ => simp [footprint] at h

/-- Settles O54: no instruction has the keys in its footprint, only FX15 has DT and only FX18 ST; of the other commands only
tick_timers has the timers and only set_key the keys. -/
theorem whoMovesTheTimersAndTheKeys : Obligations.WhoMovesTheTimersAndTheKeys := by
  refine ⟨fun r i s t hf h => ⟨?_, fun hdt => ?_, fun hst => ?_⟩, fun font c s hinit hreset hstep => ?_⟩
  · exact stepWith_samePart hf h (keys_not_mem_footprint i) (by decide)
  · have hi : .delay ∉ footprint i := fun hm => (delay_mem_footprint hm).elim hdt
    exact stepWith_samePart hf h hi (by decide)
  · have hi : .sound ∉ footprint i := fun hm => (sound_mem_footprint hm).elim hst
    exact stepWith_samePart hf h hi (by decide)
  · have hsame := (runCommand_changesOnly font c s).sameBut
    cases c with
    | init => exact absurd rfl hinit
    | reset => exact absurd rfl hreset
    | step r => exact absurd rfl (hstep r)
    | tickTimers => exact ⟨fun htick => absurd rfl htick, fun _ => hsame .keys (by simp [commandFootprint])⟩
    | setKey k p =>
      exact ⟨fun _ => ⟨hsame .delay (by simp [commandFootprint]), hsame .sound (by simp [commandFootprint])⟩,
        fun hkey => absurd rfl (hkey k p)⟩
    | load | readDisplay =>
      exact ⟨fun _ => ⟨hsame .delay (by simp [commandFootprint]), hsame .sound (by simp [commandFootprint])⟩,
        fun _ => hsame .keys (by simp [commandFootprint])⟩

end Sys2Proof.Machine

/-! The statements of 41_control_flow.md: the no-op, the jumps, the register skips, and the call with its return. -/

namespace Sys2Proof.Machine

/-! ### The no-op and the jumps -/

/-- Settles O22: the execute stage answers the state it is given, and the zero word decodes to the no-op. -/
theorem nopOnlyAdvancesPc : Obligations.NopOnlyAdvancesPc := by
  refine ⟨fun _ => rfl, fun s hpc hhi hlo => ?_⟩
  have hzero : (0 : Word).toNat = (s.mem.get s.pc.toNat).toNat * 256 + (s.mem.get (s.pc.toNat + 1)).toNat := by
    rw [hhi, hlo]
    rfl
  exact stepRunsTheDecodedInstruction s 0 .nop hpc hzero rfl

/-- The target of BNNN does not wrap: it is at most 0xFF + 0xFFF (R124). -/
theorem toNat_zextByte_add_zextAddr (w : Byte) (nnn : Addr12) :
    (zextByte w + zextAddr nnn).toNat = w.toNat + nnn.toNat := by
  have := w.isLt
  have := nnn.isLt
  rw [BitVec.toNat_add, zextByte_toNat, zextAddr_toNat]
  omega

/-- Settles O23: each jump is one write of pc, whose target does not wrap. -/
theorem jumpsSetPcAlone : Obligations.JumpsSetPcAlone := fun nnn s =>
  ⟨⟨_, rfl, zextAddr_toNat nnn, sameBut_setPc s _⟩,
   ⟨_, rfl, toNat_zextByte_add_zextAddr (s.getV 0) nnn, sameBut_setPc s _⟩⟩

/-! ### The register skips -/

section
variable (s : State) (a b : Byte)

theorem toNat_pc_skipIf_beq :
    (s.skipIf (a == b)).pc.toNat = if a.toNat = b.toNat then (s.pc.toNat + 2) % 65536 else s.pc.toNat := by
  simp only [toNat_pc_skipIf, beq_iff_eq, BitVec.toNat_inj]

theorem toNat_pc_skipIf_bne :
    (s.skipIf (a != b)).pc.toNat = if a.toNat = b.toNat then s.pc.toNat else (s.pc.toNat + 2) % 65536 := by
  simp only [toNat_pc_skipIf, bne_iff_ne, ne_eq, ite_not, BitVec.toNat_inj]

end

/-- Settles O27: 3XNN and 5XY0 skip on equal values, 4XNN and 9XY0 on different ones, and a skip writes pc alone. -/
theorem registerSkipsMovePcBy2 : Obligations.RegisterSkipsMovePcBy2 := fun _ _ _ s =>
  ⟨⟨_, rfl, sameBut_skipIf s _, toNat_pc_skipIf_beq s _ _⟩,
   ⟨_, rfl, sameBut_skipIf s _, toNat_pc_skipIf_bne s _ _⟩,
   ⟨_, rfl, sameBut_skipIf s _, toNat_pc_skipIf_beq s _ _⟩,
   ⟨_, rfl, sameBut_skipIf s _, toNat_pc_skipIf_bne s _ _⟩⟩

/-! ### The call and the return -/

/-- A call that does not overflow is the push and the jump (R123). -/
theorem exec_call_of_lt {s : State} (nnn : Addr12) (h : s.sp.val < 16) :
    exec (.call nnn) s = .next { s with
      pc := zextAddr nnn, stack := s.stack.set s.sp.val s.pc h, sp := ⟨s.sp.val + 1, by omega⟩ } := by
  rw [exec, execCall, State.push_of_lt s s.pc h]
  rfl

theorem exec_call_of_full {s : State} (nnn : Addr12) (h : s.sp.val = 16) :
    exec (.call nnn) s = .fault (.stackFault .overflow (s.pc - 2) (wrap16 (0x2000 + nnn.toNat))) := by
  rw [exec, execCall, State.push_of_full s s.pc h]
  rfl

/-- A return that does not underflow is the pop into pc (R121). -/
theorem exec_ret_of_pos {s : State} (h : 0 < s.sp.val) :
    exec .ret s = .next { s with pc := s.stack[s.sp.val - 1], sp := ⟨s.sp.val - 1, by omega⟩ } := by
  rw [exec, execRet, State.pop_of_pos s h]
  rfl

theorem exec_ret_of_empty {s : State} (h : s.sp.val = 0) :
    exec .ret s = .fault (.stackFault .underflow (s.pc - 2) 0x00EE) := by
  rw [exec, execRet, State.pop_of_empty s h]
  rfl

/-- An instruction that completes leaves every part outside its footprint. -/
theorem sameBut_of_exec {i : Instr} {s t : State} {ps : List Part} (h : exec i s = .next t) (hps : footprint i ⊆ ps) :
    SameBut s t ps := by
  rw [← execWith_randomByte] at h
  exact ((execWith_changesOnly h).mono hps).sameBut

/-- Settles O24: the push writes the entry at sp and the jump writes pc; a full stack has no room for the push. -/
theorem callPushesOrOverflows : Obligations.CallPushesOrOverflows := by
  refine fun nnn s => ⟨fun hsp => ?_, exec_call_of_full nnn⟩
  have hcall := exec_call_of_lt nnn hsp
  exact ⟨_, hcall, rfl, Vector.getElem_set_self hsp, fun k hk => Vector.getElem_set_ne hsp k.isLt (Ne.symm hk),
    zextAddr_toNat nnn, sameBut_of_exec hcall (by simp [footprint])⟩

/-- Settles O25: the pop reads the top entry and writes sp alone; an empty stack has no entry to pop. -/
theorem retPopsOrUnderflows : Obligations.RetPopsOrUnderflows := by
  refine fun s => ⟨fun hsp => ?_, exec_ret_of_empty⟩
  have hret := exec_ret_of_pos hsp
  exact ⟨_, hret, rfl, rfl, fun _ => rfl, sameBut_of_exec hret (by simp [footprint])⟩

/-- A call that completes had room for its return address (R254). -/
theorem sp_lt_of_exec_call {s t : State} {nnn : Addr12} (h : exec (.call nnn) s = .next t) : s.sp.val < 16 := by
  obtain ⟨s', hpush, -⟩ := execCall_eq_next h
  exact (State.push_eq_some hpush).1

/-- Settles O26: the call left the advanced pc in the entry just below the new depth, and that entry is the one the return
pops. -/
theorem returnComesBackAfterTheCall : Obligations.ReturnComesBackAfterTheCall := by
  intro nnn s t u hcall hdepth hentry
  have hsp := sp_lt_of_exec_call hcall
  obtain ⟨t', hcall', htsp, htop, -⟩ := (callPushesOrOverflows nnn s).1 hsp
  obtain rfl : t = t' := by simpa [hcall] using hcall'
  have htop_of_u : u.sp.val - 1 = s.sp.val := by
    rw [hdepth]
    omega
  obtain ⟨w, hret, hwsp, hwpc, -⟩ := (retPopsOrUnderflows u).1 (by omega)
  refine ⟨w, hret, ?_, Fin.ext (hwsp.trans htop_of_u)⟩
  calc w.pc = u.stack[u.sp.val - 1] := hwpc
    _ = u.stack[s.sp.val] := by simp only [htop_of_u]
    _ = t.stack[s.sp.val] := hentry ⟨s.sp.val, hsp⟩ rfl
    _ = s.pc := htop

end Sys2Proof.Machine

/-! The statements of 42_alu.md: the register loads, the logic, the arithmetic with its flags, the shifts and the
random byte. -/

namespace Sys2Proof.Machine

/-! ### The loads, the immediate add and the logic, each one write of V[X] -/

/-- Settles O29: each is one write of V[X], and the value of the add is taken modulo 256. -/
theorem loadsAndAddImmediateWriteVxAlone : Obligations.LoadsAndAddImmediateWriteVxAlone := by
  refine fun x y nn s =>
    ⟨⟨_, rfl, State.getV_setV_same s x nn, regsSameBut_setV s x _, sameBut_setV s x _⟩,
     ⟨_, rfl, ?_, regsSameBut_setV s x _, sameBut_setV s x _⟩,
     ⟨_, rfl, State.getV_setV_same s x (s.getV y), regsSameBut_setV s x _, sameBut_setV s x _⟩⟩
  rw [State.getV_setV_same, BitVec.toNat_ofNat]

/-- Settles O30: each is one write of V[X], of a byte that is combined bit by bit. -/
theorem logicWritesVxAloneBitByBit : Obligations.LogicWritesVxAloneBitByBit := by
  refine fun x y s =>
    ⟨⟨_, rfl, regsSameBut_setV s x _, sameBut_setV s x _, fun k _ => ?_⟩,
     ⟨_, rfl, regsSameBut_setV s x _, sameBut_setV s x _, fun k _ => ?_⟩,
     ⟨_, rfl, regsSameBut_setV s x _, sameBut_setV s x _, fun k _ => ?_⟩⟩
  · rw [State.getV_setV_same, BitVec.getLsbD_or]
  · rw [State.getV_setV_same, BitVec.getLsbD_and]
  · rw [State.getV_setV_same, BitVec.getLsbD_xor]

/-! ### The result and the flag as numbers -/

/-- The result stays in V[X] when X is not VF (R142). -/
theorem State.getV_setResultThenFlag_result (s : State) {x : Reg} (r f : Byte) (hx : x ≠ flagReg) :
    (s.setResultThenFlag x r f).getV x = r := by
  rw [State.getV_setResultThenFlag, if_neg hx, if_pos rfl]

theorem flagByte_toNat (b : Bool) : (flagByte b).toNat = b.toNat := by
  cases b <;> rfl

section
variable (a b : Byte)

theorem carryFlag_toNat : (carryFlag a b).toNat = if a.toNat + b.toNat > 255 then 1 else 0 := by
  rw [carryFlag, flagByte_toNat, Bool.toNat, Bool.cond_decide]

theorem noBorrowFlag_toNat : (noBorrowFlag a b).toNat = if a.toNat < b.toNat then 0 else 1 := by
  rw [noBorrowFlag, flagByte_toNat, ← decide_not, Bool.toNat, Bool.cond_decide, ite_not]

theorem lowBitFlag_toNat : (lowBitFlag a).toNat = a.toNat % 2 := by
  rw [lowBitFlag, flagByte_toNat, BitVec.getLsbD, Nat.toNat_testBit, Nat.pow_zero, Nat.div_one]

theorem highBitFlag_toNat : (highBitFlag a).toNat = a.toNat / 128 := by
  have := a.isLt
  rw [highBitFlag, flagByte_toNat, BitVec.getLsbD, Nat.toNat_testBit]
  omega

/-- The difference that 8XY5 and 8XY7 write, computed with 256 added first, is the integer difference modulo 256. -/
theorem toNat_wrap8_add_sub : ((wrap8 (a.toNat + 256 - b.toNat)).toNat : Int) = (a.toNat - b.toNat : Int) % 256 := by
  have := b.isLt
  rw [BitVec.toNat_ofNat]
  omega

end

/-! ### The arithmetic and the shifts, each a result and then a flag -/

/-- Settles O31: the sum and the carry are computed from the old registers, and the carry is written last. -/
theorem addWritesSumThenCarry : Obligations.AddWritesSumThenCarry := by
  refine fun x y s =>
    ⟨_, rfl, fun hx => ?_, ?_, regsSameBut_setResultThenFlag s x _ _, sameBut_setResultThenFlag s x _ _⟩
  · rw [State.getV_setResultThenFlag_result s _ _ hx, BitVec.toNat_ofNat]
  · rw [State.getV_setResultThenFlag_flag, carryFlag_toNat]

/-- What 8XY5 and 8XY7 share: the difference of two old registers, then the inverted borrow. -/
theorem setResultThenFlag_difference (s : State) (x : Reg) (a b : Byte) :
    let t := s.setResultThenFlag x (wrap8 (a.toNat + 256 - b.toNat)) (noBorrowFlag a b)
    (x ≠ 0xF → ((t.getV x).toNat : Int) = (a.toNat - b.toNat : Int) % 256) ∧
    (t.getV 0xF).toNat = (if a.toNat < b.toNat then 0 else 1) ∧
    RegsSameBut s t [x, 0xF] ∧ SameBut s t [.regs] := by
  refine ⟨fun hx => ?_, ?_, regsSameBut_setResultThenFlag s x _ _, sameBut_setResultThenFlag s x _ _⟩
  · rw [State.getV_setResultThenFlag_result s _ _ hx, toNat_wrap8_add_sub]
  · rw [State.getV_setResultThenFlag_flag, noBorrowFlag_toNat]

/-- Settles O32: 8XY7 is 8XY5 with the operands exchanged and the same destination. -/
theorem subtractsWriteDifferenceThenNoBorrow : Obligations.SubtractsWriteDifferenceThenNoBorrow := fun x y s =>
  ⟨⟨_, rfl, setResultThenFlag_difference s x (s.getV x) (s.getV y)⟩,
   ⟨_, rfl, setResultThenFlag_difference s x (s.getV y) (s.getV x)⟩⟩

/-- Settles O33: the bit shifted out is the remainder of V[X] by 2 or its quotient by 128, and no meaning names V[Y]. -/
theorem shiftsCaptureTheBitShiftedOut : Obligations.ShiftsCaptureTheBitShiftedOut := by
  refine fun x y s =>
    ⟨⟨_, rfl, fun hx => ?_, ?_, regsSameBut_setResultThenFlag s x _ _, sameBut_setResultThenFlag s x _ _⟩,
     ⟨_, rfl, fun hx => ?_, ?_, regsSameBut_setResultThenFlag s x _ _, sameBut_setResultThenFlag s x _ _⟩,
     fun _ => ⟨rfl, rfl⟩⟩
  · rw [State.getV_setResultThenFlag_result s _ _ hx, BitVec.toNat_ushiftRight, Nat.shiftRight_one]
  · rw [State.getV_setResultThenFlag_flag, lowBitFlag_toNat]
  · rw [State.getV_setResultThenFlag_result s _ _ hx, BitVec.toNat_shiftLeft, Nat.shiftLeft_eq, Nat.pow_one, Nat.mul_comm]
  · rw [State.getV_setResultThenFlag_flag, highBitFlag_toNat]

/-! ### The random byte -/

/-- CXNN with any byte given writes that byte masked and consumes one draw (R154; log 1). -/
theorem execWith_rnd_spec (r : Byte) (x : Reg) (nn : Byte) (s : State) :
    ∃ t, execWith r (.rnd x nn) s = .next t ∧ RegsSameBut s t [x] ∧ SameBut s t [.regs, .draws] ∧
      t.draws = s.draws + 1 ∧ ∀ k < 8, (t.getV x).getLsbD k = (r.getLsbD k && nn.getLsbD k) := by
  have hnext : execWith r (.rnd x nn) s = .next (s.setV x (r &&& nn)).consumeDraw := rfl
  refine ⟨_, hnext, regsSameBut_setV s x _, (execWith_changesOnly hnext).sameBut, rfl, fun k _ => ?_⟩
  rw [State.getV_consumeDraw, State.getV_setV_same, BitVec.getLsbD_and]

/-- Settles O34: the model's free byte is one of the bytes the host may supply. -/
theorem randomWritesTheDrawMaskedForEveryDraw : Obligations.RandomWritesTheDrawMaskedForEveryDraw := by
  refine fun x nn s => ⟨fun r => ?_, ?_⟩
  · obtain ⟨t, hnext, hregs, hsame, -, hbits⟩ := execWith_rnd_spec r x nn s
    exact ⟨t, hnext, hregs, hsame, hbits⟩
  · rw [← execWith_randomByte]
    exact execWith_rnd_spec s.randomByte x nn s

end Sys2Proof.Machine

/-! The statements of 43_index_memory.md: the loads of I, the add to I, the three transfers between registers and memory, and who
writes I. -/

namespace Sys2Proof.Machine

/-! ### The transfers, when their addresses are inside memory -/

section
variable {s : State} {x : Reg}

theorem exec_ldB_of_inside (h : s.i.toNat + 2 < 4096) :
    exec (.ldB x) s = .next (s.setMem (s.mem.putBytes s.i.toNat (bcdDigits (s.getV x)))) :=
  State.checkData_pass _ _ _ _ (.inr (by omega))

theorem exec_storeRegs_of_inside (h : s.i.toNat + x.toNat < 4096) :
    exec (.storeRegs x) s = .next (s.setMem (s.mem.putBytes s.i.toNat (s.regsUpTo x))) :=
  State.checkData_pass _ _ _ _ (.inr (by omega))

theorem exec_loadRegs_of_inside (h : s.i.toNat + x.toNat < 4096) :
    exec (.loadRegs x) s = .next (s.loadV s.i.toNat x.toNat) :=
  State.checkData_pass _ _ _ _ (.inr (by omega))

end

/-- A stored register list that fits leaves V[r] at base + r (R174). -/
theorem Memory.get_putBytes_regsUpTo (m : Memory) {base : Nat} (s : State) {x r : Reg} (hfit : base + x.toNat < 4096)
    (hr : r.toNat ≤ x.toNat) : (m.putBytes base (s.regsUpTo x)).get (base + r.toNat) = s.getV r := by
  have hlen := State.length_regsUpTo s x
  rw [Memory.get_putBytes_inside _ _ _ _ (by omega) (by rw [hlen]; exact hfit), State.getElem_regsUpTo,
    BitVec.ofNat_toNat, BitVec.setWidth_eq]

/-- The stored digits of a byte that fit are hundreds, tens and ones from base up (R173). -/
theorem Memory.toNat_get_putBytes_bcdDigits (m : Memory) {base : Nat} (w : Byte) (hfit : base + 2 < 4096) :
    let n := m.putBytes base (bcdDigits w)
    (n.get base).toNat = w.toNat / 100 % 10 ∧ (n.get (base + 1)).toNat = w.toNat / 10 % 10 ∧
      (n.get (base + 2)).toNat = w.toNat % 10 := by
  have hcell (k : Nat) (hk : k < (bcdDigits w).length) :
      ((m.putBytes base (bcdDigits w)).get (base + k)).toNat = w.toNat / 10 ^ (2 - k) % 10 := by
    rw [Memory.get_putBytes_inside _ _ _ _ hk hfit, getElem_bcdDigits_toNat]
  exact ⟨hcell 0 (by decide : 0 < 3), hcell 1 (by decide : 1 < 3),
    (hcell 2 (by decide : 2 < 3)).trans (by rw [Nat.sub_self, Nat.pow_zero, Nat.div_one])⟩

/-- Settles O38: the store writes the registers in order from I, which the bound check let pass. -/
theorem storeRegistersWritesV0ToVx : Obligations.StoreRegistersWritesV0ToVx := by
  refine fun x s hin => ⟨_, exec_storeRegs_of_inside hin, fun r hr => ?_, ?_, sameBut_setMem s _⟩
  · exact Memory.get_putBytes_regsUpTo s.mem s hin hr
  · rw [← State.length_regsUpTo s x]
    exact memorySameOutside_putBytes s _ _

/-- Settles O39: the load takes register r from I + r for r up to X and stops there. -/
theorem loadRegistersReadsV0ToVx : Obligations.LoadRegistersReadsV0ToVx := by
  refine fun x s hin => ⟨_, exec_loadRegs_of_inside hin, fun r hr => ?_, fun r hr => ?_, sameBut_loadV s _ _⟩
  · rw [State.getV_loadV _ _ _ x.isLt, if_pos hr]
  · rw [State.getV_loadV _ _ _ x.isLt, if_neg (Nat.not_le.mpr hr)]

/-- Settles O40: that the store completed puts the addresses inside memory, so the load completes too, and it reads the bytes the
store left there. -/
theorem storeThenLoadRestoresRegisters : Obligations.StoreThenLoadRestoresRegisters := by
  intro x s t u hstore hi hkept
  obtain ⟨hin, rfl⟩ := execStoreRegs_eq_next hstore
  obtain ⟨w, hload, hread, -, -⟩ := loadRegistersReadsV0ToVx x u (by rw [hi]; exact hin)
  refine ⟨w, hload, fun r hr => ?_⟩
  calc w.getV r = u.mem.get (s.i.toNat + r.toNat) := by rw [hread r hr, hi]
    _ = (s.mem.putBytes s.i.toNat (s.regsUpTo x)).get (s.i.toNat + r.toNat) := hkept r.toNat hr
    _ = s.getV r := Memory.get_putBytes_regsUpTo s.mem s hin hr

/-- A byte is its three decimal digits, and its hundreds digit is at most 2. -/
theorem digits_of_byte (w : Byte) :
    w.toNat / 100 % 10 * 100 + w.toNat / 10 % 10 * 10 + w.toNat % 10 = w.toNat ∧ w.toNat / 100 % 10 ≤ 2 := by
  have := w.isLt
  omega

/-- Settles O37: the three cells hold the decimal digits, which make the byte again. -/
theorem bcdStoresThreeDigits : Obligations.BcdStoresThreeDigits := by
  intro x s hin
  refine ⟨_, exec_ldB_of_inside hin, ?_⟩
  obtain ⟨h0, h1, h2⟩ := Memory.toNat_get_putBytes_bcdDigits s.mem (s.getV x) hin
  obtain ⟨hsum, hhundreds⟩ := digits_of_byte (s.getV x)
  rw [State.setMem_mem, h0, h1, h2]
  exact ⟨hsum, hhundreds, by omega, by omega, memorySameOutside_putBytes s _ (bcdDigits (s.getV x)), sameBut_setMem s _⟩

/-! ### The address register -/

/-- Five times a byte does not wrap at 16 bits (R172). -/
theorem toNat_wrap16_five_mul (w : Byte) : (wrap16 (5 * w.toNat)).toNat = 5 * w.toNat := by
  have := w.isLt
  rw [BitVec.toNat_ofNat]
  omega

/-- Settles O35: each is one write of I, of a value that does not wrap. -/
theorem addressRegisterLoads : Obligations.AddressRegisterLoads := fun x nnn s =>
  ⟨⟨_, rfl, zextAddr_toNat nnn, sameBut_setI s _⟩, ⟨_, rfl, toNat_wrap16_five_mul (s.getV x), sameBut_setI s _⟩⟩

/-- Settles O36: one write of I, of the sum taken modulo 65536. -/
theorem addToAddressRegisterWrapsAt16Bits : Obligations.AddToAddressRegisterWrapsAt16Bits := fun _ s =>
  ⟨_, rfl, BitVec.toNat_ofNat _ _, sameBut_setI s _⟩

/-! ### Who writes I -/

theorem index_mem_footprint {i : Instr} (h : .index ∈ footprint i) :
    (∃ nnn, i = .ldI nnn) ∨ (∃ x, i = .addI x) ∨ ∃ x, i = .ldF x := by
  cases i with
  | ldI nnn => exact .inl ⟨nnn, rfl⟩
  | addI x => exact .inr (.inl ⟨x, rfl⟩)
  | ldF x => exact .inr (.inr ⟨x, rfl⟩)
  | _ => simp [footprint] at h

/-- Settles O56: I is in the footprint of these three alone. -/
theorem onlyThreeInstructionsWriteI : Obligations.OnlyThreeInstructionsWriteI := by
  intro r i s t hf h hldI haddI hldF
  have hi : .index ∉ footprint i := fun hm => by
    obtain ⟨nnn, e⟩ | ⟨x, e⟩ | ⟨x, e⟩ := index_mem_footprint hm
    · exact hldI nnn e
    · exact haddI x e
    · exact hldF x e
  exact stepWith_samePart hf h hi (by decide)

end Sys2Proof.Machine

/-! The statements of 44_display.md: clearing the screen, drawing a sprite once and twice, reading the display, and who writes the
framebuffer. -/

namespace Sys2Proof.Machine

/-! ### Clearing the screen -/

/-- Settles O43: one write of the framebuffer, to the clear one. -/
theorem clearScreenClearsEveryPixel : Obligations.ClearScreenClearsEveryPixel := fun s =>
  ⟨_, rfl, Framebuffer.pixel_clear, sameBut_setFb s _⟩

/-! ### Drawing a sprite -/

/-- A 1 bit of the sprite that DXYN reads in s lands on this pixel (R192). -/
abbrev State.SpriteLandsOn (s : State) (x y : Reg) (n : Nibble) : Fin 64 → Fin 32 → Prop :=
  SpriteBitAt s.mem s.i.toNat (s.getV x).toNat (s.getV y).toNat n.toNat

section
variable {s t : State} {x y : Reg} {n : Nibble}

theorem exec_drw_of_inside (h : n.toNat = 0 ∨ s.i.toNat + n.toNat ≤ 4096) : exec (.drw x y n) s =
    .next ((s.setFb (s.drawn x y n).fb).setV flagReg (collisionFlag (s.drawn x y n).hit)) :=
  State.checkData_pass _ _ _ _ h

theorem execDrw_eq_next (h : exec (.drw x y n) s = .next t) :
    t = (s.setFb (s.drawn x y n).fb).setV flagReg (collisionFlag (s.drawn x y n).hit) := by
  cases State.checkData_eq_next h
  rfl

theorem State.flipped_drawn : Drawing.Flipped ⟨s.fb, false⟩ (s.drawn x y n) (s.SpriteLandsOn x y n) :=
  have hrows : n.toNat ≤ 32 := n.isLt.le.trans (by decide)
  Drawing.flipped_sprite _ _ _ _ _ _ hrows

theorem State.pixel_drawn_of_lands {px : Fin 64} {py : Fin 32} (h : s.SpriteLandsOn x y n px py) :
    (s.drawn x y n).fb.pixel px py = !s.fb.pixel px py :=
  (State.flipped_drawn.1 px py).1 h

theorem State.pixel_drawn_of_not_lands {px : Fin 64} {py : Fin 32} (h : ¬ s.SpriteLandsOn x y n px py) :
    (s.drawn x y n).fb.pixel px py = s.fb.pixel px py :=
  (State.flipped_drawn.1 px py).2 h

/-- A draw collides when a 1 bit lands on a set pixel (R193). -/
theorem State.drawn_hit_iff :
    (s.drawn x y n).hit = true ↔ ∃ px py, s.SpriteLandsOn x y n px py ∧ s.fb.pixel px py = true := by
  simpa using State.flipped_drawn.2

theorem collisionFlag_eq_one_iff (hit : Bool) : collisionFlag hit = 1 ↔ hit = true := by
  cases hit <;> decide

end

/-- Settles O44: the bound check lets the draw pass, the sprite's rows and columns flip each pixel at most once, and VF is written
after the framebuffer, from the drawing's own collision. -/
theorem drawXorsTheSpriteAndReportsCollision : Obligations.DrawXorsTheSpriteAndReportsCollision := by
  intro x y n s hin
  have hin' : n.toNat = 0 ∨ s.i.toNat + n.toNat ≤ 4096 := hin.imp_left fun hn => by rw [hn]; rfl
  have hdraw := exec_drw_of_inside (x := x) (y := y) hin'
  refine ⟨_, hdraw, regsSameBut_setV _ _ _, sameBut_of_exec hdraw (by simp [footprint]),
    fun _ _ => State.pixel_drawn_of_lands, fun _ _ => State.pixel_drawn_of_not_lands, ?_⟩
  rw [State.getV_setV_same]
  obtain ⟨hhit, hflag⟩ | ⟨hhit, hflag⟩ := flagByte_cases (s.drawn x y n).hit
  · exact .inl ⟨hflag, State.drawn_hit_iff.mp hhit⟩
  · refine .inr ⟨hflag, fun px py hon => Bool.eq_false_iff.mpr fun hset => ?_⟩
    exact Bool.eq_false_iff.mp hhit (State.drawn_hit_iff.mpr ⟨px, py, hon, hset⟩)

/-- Settles O45: the second draw reads the same sprite at the same place, so it flips the same pixels back, and it collides on a
pixel that the first draw set, which was clear before. -/
theorem drawingTwiceRestoresTheScreen : Obligations.DrawingTwiceRestoresTheScreen := by
  intro x y n s t u w hfirst hx hy hi hmem hfb hsecond
  have hlands : u.SpriteLandsOn x y n = s.SpriteLandsOn x y n := by
    rw [State.SpriteLandsOn, State.SpriteLandsOn, hx, hy, hi, hmem]
  have hufb : u.fb = (s.drawn x y n).fb := by
    rw [hfb, execDrw_eq_next hfirst]
    rfl
  obtain rfl := execDrw_eq_next hsecond
  constructor
  · refine Framebuffer.eq_of_pixel_eq fun px py => ?_
    rw [State.setV_fb, State.setFb_fb]
    by_cases hon : s.SpriteLandsOn x y n px py
    · rw [State.pixel_drawn_of_lands (hlands ▸ hon), hufb, State.pixel_drawn_of_lands hon, Bool.not_not]
    · rw [State.pixel_drawn_of_not_lands (hlands ▸ hon), hufb, State.pixel_drawn_of_not_lands hon]
  · rw [State.getV_setV_same, collisionFlag_eq_one_iff, State.drawn_hit_iff, hlands, hufb]
    refine exists₂_congr fun px py => and_congr_right fun hon => ?_
    rw [State.pixel_drawn_of_lands hon, Bool.not_eq_true']

/-! ### Reading the display -/

/-- The linear index of pixel (x, y) is y * 64 + x (R190). -/
theorem getElem_readDisplay (s : State) (x : Fin 64) (y : Fin 32) :
    (readDisplay s)[y.val * 64 + x.val]'(by omega) = s.fb.pixel x y := by
  have hcol : (y.val * 64 + x.val) % 64 = x.val := by omega
  have hrow : (y.val * 64 + x.val) / 64 = y.val := by omega
  simp only [readDisplay, Vector.getElem_ofFn, hcol, hrow]

theorem readDisplay_setFb_clear (s : State) : readDisplay (s.setFb Framebuffer.clear) = Vector.replicate 2048 false := by
  refine Vector.ext fun k hk => ?_
  rw [readDisplay, Vector.getElem_ofFn, State.setFb_fb, Framebuffer.pixel_clear, Vector.getElem_replicate]

/-- Settles O46: the command answers the display of the state it leaves as it was. -/
theorem readDisplayIsRowMajorAndReadOnly : Obligations.ReadDisplayIsRowMajorAndReadOnly := by
  refine ⟨fun _ s => ⟨readDisplay s, rfl, getElem_readDisplay s⟩, fun _ s t h => ?_⟩
  cases h
  exact congrArg Response.display (readDisplay_setFb_clear s)

/-! ### Who writes the framebuffer -/

theorem display_mem_footprint {i : Instr} (h : .display ∈ footprint i) : i = .cls ∨ ∃ x y n, i = .drw x y n := by
  cases i with
  | cls => exact .inl rfl
  | drw x y n => exact .inr ⟨x, y, n, rfl⟩
  | _ => simp [footprint] at h

theorem display_mem_commandFootprint {c : Command} (h : .display ∈ commandFootprint c) :
    c = .init ∨ c = .reset ∨ ∃ r, c = .step r := by
  cases c with
  | init => exact .inl rfl
  | reset => exact .inr (.inl rfl)
  | step r => exact .inr (.inr ⟨r, rfl⟩)
  | _ => simp [commandFootprint] at h

/-- Settles O55: the framebuffer is in the footprint of 00E0 and DXYN alone, and of no command but the resets and the step. -/
theorem onlyClsDrwAndResetWriteTheFramebuffer : Obligations.OnlyClsDrwAndResetWriteTheFramebuffer := by
  refine ⟨fun r i s t hf h hcls hdrw => ?_, fun font c s hinit hreset hstep => ?_⟩
  · have hi : .display ∉ footprint i := fun hm => by
      obtain e | ⟨x, y, n, e⟩ := display_mem_footprint hm
      · exact hcls e
      · exact hdrw x y n e
    exact stepWith_samePart hf h hi (by decide)
  · have hc : .display ∉ commandFootprint c := fun hm => by
      obtain e | e | ⟨r, e⟩ := display_mem_commandFootprint hm
      · exact hinit e
      · exact hreset e
      · exact hstep r e
    exact (runCommand_changesOnly font c s).sameBut .display hc

end Sys2Proof.Machine

/-! The statements of 45_input_timers.md: the key skips, the key wait, the timer instructions and set_key. -/

namespace Sys2Proof.Machine

/-! ### The key skips -/

/-- A byte that names key k passes the key check, with k (R212). -/
theorem State.checkKey_of_toNat_eq (s : State) (i : Instr) {w : Byte} {k : Reg} (f : Reg → Result)
    (h : w.toNat = k.toNat) : s.checkKey i w f = f k := by
  have hk := k.isLt
  rw [State.checkKey_pass s i w f (by omega), h, BitVec.ofNat_toNat, BitVec.setWidth_eq]

theorem toNat_pc_skipIf_not (s : State) (c : Bool) :
    (s.skipIf (!c)).pc.toNat = if c = true then s.pc.toNat else (s.pc.toNat + 2) % 65536 := by
  cases c <;> exact toNat_pc_skipIf s _

/-- A word of format XI as a row's pattern with X added in its place (R72, R75). -/
theorem encodeXI_eq_wrap16 {op pattern : Nat} (x : Reg) {nn : Byte} (h : op * 0x1000 + nn.toNat = pattern) :
    encodeXI op x nn = wrap16 (pattern + x.toNat * 256) := by
  rw [← h, Nat.add_right_comm, encodeXI]

theorem encode_skp (x : Reg) : encode (.skp x) = wrap16 (0xE09E + x.toNat * 256) :=
  encodeXI_eq_wrap16 (op := 0xE) (nn := 0x9E) x rfl

theorem encode_sknp (x : Reg) : encode (.sknp x) = wrap16 (0xE0A1 + x.toNat * 256) :=
  encodeXI_eq_wrap16 (op := 0xE) (nn := 0xA1) x rfl

theorem encode_ldKey (x : Reg) : encode (.ldKey x) = wrap16 (0xF00A + x.toNat * 256) :=
  encodeXI_eq_wrap16 (op := 0xF) (nn := 0x0A) x rfl

section
variable {s : State} {x : Reg}

theorem exec_skp_of_names {k : Reg} (h : (s.getV x).toNat = k.toNat) :
    exec (.skp x) s = .next (s.skipIf (s.keyDown k)) :=
  State.checkKey_of_toNat_eq _ _ _ h

theorem exec_sknp_of_names {k : Reg} (h : (s.getV x).toNat = k.toNat) :
    exec (.sknp x) s = .next (s.skipIf (!s.keyDown k)) :=
  State.checkKey_of_toNat_eq _ _ _ h

theorem exec_skp_of_no_key (h : 15 < (s.getV x).toNat) : exec (.skp x) s =
    .fault (.keyIndexFault (s.pc - 2) (wrap16 (0xE09E + x.toNat * 256)) (s.getV x)) := by
  rw [← encode_skp]
  exact State.checkKey_fail _ _ _ _ h

theorem exec_sknp_of_no_key (h : 15 < (s.getV x).toNat) : exec (.sknp x) s =
    .fault (.keyIndexFault (s.pc - 2) (wrap16 (0xE0A1 + x.toNat * 256)) (s.getV x)) := by
  rw [← encode_sknp]
  exact State.checkKey_fail _ _ _ _ h

end

/-- Settles O47: the key check lets a byte up to 15 pass and raises the fault on the others, and a skip writes pc alone. -/
theorem keySkipsReadTheKeyOrFault : Obligations.KeySkipsReadTheKeyOrFault := fun _ _ s =>
  ⟨fun hkey => ⟨⟨_, exec_skp_of_names hkey, sameBut_skipIf s _, toNat_pc_skipIf s _⟩,
    ⟨_, exec_sknp_of_names hkey, sameBut_skipIf s _, toNat_pc_skipIf_not s _⟩⟩,
   fun hout => ⟨exec_skp_of_no_key hout, exec_sknp_of_no_key hout⟩⟩

/-! ### The key wait -/

/-- A pressed key below which none is pressed is the lowest one (R215). -/
theorem State.lowestKey_eq_some {s : State} {k : Reg} (hk : s.keyDown k = true)
    (hlow : ∀ j : Reg, j.toNat < k.toNat → s.keyDown j = false) : s.lowestKey = some k := by
  cases hl : s.lowestKey with
  | none => simp [s.lowestKey_none.mp hl k] at hk
  | some j =>
    obtain ⟨hj, hmin⟩ := State.lowestKey_some hl
    have hge : k.toNat ≤ j.toNat := Nat.le_of_not_lt fun hlt => by simp [hlow j hlt] at hj
    rw [BitVec.eq_of_toNat_eq (Nat.le_antisymm (hmin k hk) hge)]

theorem exec_ldKey_of_no_key {s : State} (x : Reg) (h : ∀ k, s.keyDown k = false) :
    exec (.ldKey x) s = .next (s.setPc (s.pc - 2)) := by
  rw [exec, execLdKey, s.lowestKey_none.mpr h]

theorem exec_ldKey_of_lowest {s : State} (x : Reg) {k : Reg} (h : s.lowestKey = some k) :
    exec (.ldKey x) s = .next (s.setV x (wrap8 k.toNat)) := by
  rw [exec, execLdKey, h]

theorem toNat_wrap8_key (k : Reg) : (wrap8 k.toNat).toNat = k.toNat := by
  have := k.isLt
  rw [BitVec.toNat_ofNat]
  omega

/-- Going back from the fetch's advance gives the state before the fetch (R103, R215). -/
theorem State.setPc_back_advance (s : State) : s.advance.setPc (s.advance.pc - 2) = s :=
  congrArg s.setPc s.insnAddr_advance

/-- The step of FX0A with no key pressed: the wait undoes the fetch's advance. -/
theorem step_ldKey_of_no_key {s : State} {x : Reg} (hnone : ∀ k, s.keyDown k = false) (hpc : s.pc.toNat < 0xFFF)
    (hw : s.mem.word s.pc.toNat = encode (.ldKey x)) : step s = .next s := by
  have hf : s.fetchDecode = .ok (.ldKey x) := State.fetchDecode_ok hpc (by rw [hw, decode_encode])
  rw [step_of_fetchDecode_ok hf, exec_ldKey_of_no_key (s := s.advance) x hnone, State.setPc_back_advance]

/-- Settles O48: with no key pressed there is no lowest key and pc goes back; otherwise the lowest key is unique. -/
theorem waitForKeyWaitsOrTakesTheLowest : Obligations.WaitForKeyWaitsOrTakesTheLowest := by
  refine fun x s => ⟨fun hnone => ⟨⟨_, exec_ldKey_of_no_key x hnone, rfl, sameBut_setPc s _⟩, fun hpc hw => ?_⟩,
    fun k hk hlow => ⟨_, exec_ldKey_of_lowest x (State.lowestKey_eq_some hk hlow), ?_,
      regsSameBut_setV s x _, sameBut_setV s x _⟩⟩
  · exact step_ldKey_of_no_key hnone hpc (hw.trans (encode_ldKey x).symm)
  · rw [State.getV_setV_same, toNat_wrap8_key]

/-! ### The timer instructions -/

/-- Settles O49: each is one write, of V[X], of DT or of ST. -/
theorem timerInstructionsCopyTheByte : Obligations.TimerInstructionsCopyTheByte := fun x s =>
  ⟨⟨_, rfl, State.getV_setV_same s x s.dt, regsSameBut_setV s x _, sameBut_setV s x _⟩,
   ⟨_, rfl, State.setDT_dt s (s.getV x), sameBut_setDT s _⟩,
   ⟨_, rfl, State.setST_st s (s.getV x), sameBut_setST s _⟩⟩

/-! ### set_key -/

section
variable {index : Int} (pressed : Bool) (s : State)

theorem keyIndexFits_iff : keyIndexFits index = true ↔ 0 ≤ index ∧ index < 16 := by
  rw [keyIndexFits, decide_eq_true_iff]
  omega

theorem setKeyCommand_of_fits (h : 0 ≤ index ∧ index < 16) : setKeyCommand index pressed s =
    ({ s with key := s.key.set index.toNat pressed (by omega) }, .ok) :=
  dif_pos h

theorem setKeyCommand_of_not_fits (h : ¬ (0 ≤ index ∧ index < 16)) :
    setKeyCommand index pressed s = (s, .fault (.keyArgumentError index)) :=
  dif_neg h

theorem keyDown_setKeyCommand (h : 0 ≤ index ∧ index < 16) (k : Reg) : (setKeyCommand index pressed s).1.keyDown k =
    if (k.toNat : Int) = index then pressed else s.keyDown k := by
  have hindex : index.toNat = k.toNat ↔ (k.toNat : Int) = index := by omega
  rw [setKeyCommand_of_fits pressed s h, State.keyDown, Vector.getElem_set]
  simp only [hindex, State.keyDown]

end

/-- Settles O51: an index that fits is one of the 16 flags, and every other one is refused before anything is written. -/
theorem setKeyWritesOneFlagOrRefuses : Obligations.SetKeyWritesOneFlagOrRefuses := by
  refine fun font index pressed s => ⟨fun hfits => ?_, fun hout => ?_⟩
  · have hindex := keyIndexFits_iff.mp hfits
    have hok : (setKeyCommand index pressed s).2 = .ok := by rw [setKeyCommand_of_fits pressed s hindex]
    exact ⟨_, Prod.ext rfl hok, keyDown_setKeyCommand pressed s hindex, (changesOnly_setKeyCommand index pressed s).sameBut⟩
  · exact setKeyCommand_of_not_fits pressed s fun h => by simp [keyIndexFits_iff.mpr h] at hout

end Sys2Proof.Machine

/-! The statements of 47_host_interface.md: the step command and its random byte, its faults, and load. -/

namespace Sys2Proof.Machine

/-! ### The step command and its random byte -/

/-- Settles O20: the fetch's advance draws no byte, so the instruction reads the one that is free before the step. -/
theorem stepIsTheCommandWithTheFreeByte : Obligations.StepIsTheCommandWithTheFreeByte := by
  intro s
  cases hf : s.fetchDecode with
  | error f => rw [step_of_fetchDecode_error hf, stepWith_of_fetchDecode_error _ hf]
  | ok i =>
    rw [step_of_fetchDecode_ok hf, stepWith_of_fetchDecode_ok _ hf]
    exact (execWith_randomByte i s.advance).symm

/-! ### A faulted step -/

section
variable {r : Byte} {s : State} {f : Fault}

/-- The step command reports a fault exactly when the step ends in it (R107). -/
theorem stepCommand_fault_iff : (stepCommand r s).2 = .fault f ↔ stepWith r s = .fault f := by
  unfold stepCommand
  cases stepWith r s <;> simp

/-- CXNN always completes (R154), so a step that faults has not fetched it. -/
theorem fetchDecode_ne_rnd_of_fault (h : stepWith r s = .fault f) (x : Reg) (nn : Byte) :
    s.fetchDecode ≠ .ok (.rnd x nn) := by
  intro hf
  obtain ⟨t, hnext, -⟩ := execWith_rnd_spec r x nn s.advance
  rw [stepWith_of_fetchDecode_ok r hf, hnext] at h
  cases h

theorem stepWith_fault_of_fault (q : Byte) (h : stepWith r s = .fault f) : stepWith q s = .fault f :=
  (onlyCxnnReadsTheRandomByte s q r (fetchDecode_ne_rnd_of_fault h)).trans h

end

/-- Settles O18: the fault left the state as it was, and it did not come from the one instruction that reads the byte. -/
theorem faultedStepFaultsAgain : Obligations.FaultedStepFaultsAgain := by
  intro font r q s f h
  have hsame : (runCommand font (.step r) s).1 = s := stepCommand_of_fault h
  rw [hsame]
  exact stepCommand_fault_iff.mpr (stepWith_fault_of_fault q (stepCommand_fault_iff.mp h))

/-! ### load -/

theorem programFits_iff {bytes : List Byte} : programFits bytes = true ↔ bytes.length ≤ Config.loadMax :=
  decide_eq_true_iff

theorem loadCommand_of_fits {bytes : List Byte} (s : State) (h : bytes.length ≤ Config.loadMax) :
    loadCommand bytes s = (s.setMem (s.mem.putBytes Config.progBase bytes), .ok) :=
  if_neg (Nat.not_lt.mpr h)

/-- Settles O52: a payload that fits ends at or below the top of memory, so every byte lands and only its cells change. -/
theorem loadCopiesTheProgramAt0x200 : Obligations.LoadCopiesTheProgramAt0x200 := by
  intro font bytes s hfits
  have hlen : bytes.length ≤ Config.loadMax := programFits_iff.mp hfits
  have hroom : Config.progBase + bytes.length ≤ Config.memSize := Nat.add_le_add_left hlen Config.progBase
  exact ⟨_, loadCommand_of_fits s hlen, fun k hk => Memory.get_putBytes_inside bytes s.mem _ k hk hroom,
    memorySameOutside_putBytes s _ bytes, sameBut_setMem s _⟩

end Sys2Proof.Machine

/-! The statements of 60_exceptions.md: when a step faults and with what record, the timer tick, and an oversize load. -/

namespace Sys2Proof.Machine

/-! ### The faults of a step -/

section
variable {s : State} {f : Fault}

/-- What R253 to R256 say an instruction raises, its execute stage raises. -/
theorem exec_of_executeFault {i : Instr} (h : executeFault i s s.insnAddr (encode i) f) : exec i s = .fault f := by
  cases i with
  | ret =>
    obtain ⟨hempty, rfl⟩ := h
    exact exec_ret_of_empty hempty
  | call nnn =>
    obtain ⟨hfull, rfl⟩ := h
    exact exec_call_of_full nnn hfull
  | skp x | sknp x =>
    obtain ⟨hkey, rfl⟩ := h
    exact s.checkKey_fail _ _ _ hkey
  | ldB x | storeRegs x | loadRegs x =>
    obtain ⟨hout, rfl⟩ := h
    exact s.checkData_fail _ _ _ (by omega) (by omega)
  | drw x y n =>
    obtain ⟨hn, hout, rfl⟩ := h
    exact s.checkData_fail _ _ _ hn (by omega)
  | _ => exact h.elim

theorem exec_eq_fault_iff {i : Instr} : exec i s = .fault f ↔ executeFault i s s.insnAddr (encode i) f := by
  refine ⟨fun h => ?_, exec_of_executeFault⟩
  obtain ⟨t, hnext⟩ | ⟨g, hfault, hg⟩ := exec_cases i s
  · rw [hnext] at h
    cases h
  · rw [hfault] at h
    cases h
    exact hg

/-- The execute stage's faults are decided by sp, I and V, which the fetch's advance leaves alone (R103). -/
theorem executeFault_advance (i : Instr) (s : State) (pc w : Word) (f : Fault) :
    executeFault i s.advance pc w f = executeFault i s pc w f := by
  cases i <;> rfl

/-- A word the decoder rejects is accepted by no row of R75: an accepted word decodes to its row's instruction. -/
theorem not_legalWord_of_decode_eq_error {w : Word} {e : DecodeError} (h : decode w = .error e) : legalWord w = false := by
  refine Bool.eq_false_iff.mpr fun hlegal => ?_
  obtain ⟨r, hr, hacc⟩ := List.any_eq_true.mp hlegal
  obtain ⟨i, hi, -⟩ := decoderFollowsTheOpcodeTable.1 w r hr hacc
  rw [hi] at h
  cases h

/-- A step that fetches a legal word faults as its instruction does, with the fetched word, which is the instruction's own
encoding, and the pc it was fetched from (R250). -/
theorem step_eq_fault_iff_executeFault {i : Instr} (hpc : s.pc.toNat < 0xFFF)
    (hd : decode (s.mem.word s.pc.toNat) = .ok i) :
    step s = .fault f ↔ executeFault i s s.pc (s.mem.word s.pc.toNat) f := by
  rw [step_of_fetchDecode_ok (State.fetchDecode_ok hpc hd), exec_eq_fault_iff, executeFault_advance,
    State.insnAddr_advance, encode_of_decode hd]

end

/-- Settles O15: the three ways the fetch and decode can end are the three clauses, of which each excludes the others. -/
theorem stepFaultsExactlyWhenTheSpecSays : Obligations.StepFaultsExactlyWhenTheSpecSays := by
  intro s f
  obtain ⟨hpc, hf⟩ | ⟨hpc, ⟨e, hd⟩, hf⟩ | ⟨hpc, i, hd, -⟩ := s.fetchDecode_cases
  · rw [step_of_fetchDecode_error hf]
    simp [hpc, Nat.not_lt.mpr hpc, @eq_comm _ f]
  · rw [step_of_fetchDecode_error hf]
    simp [hpc, Nat.not_le.mpr hpc, hd, not_legalWord_of_decode_eq_error hd, @eq_comm _ f]
  · rw [step_eq_fault_iff_executeFault hpc hd]
    simp [hpc, Nat.not_le.mpr hpc, hd, legalWord_of_decode hd]

/-! ### tick_timers -/

theorem countDown_toNat (t : Byte) : (countDown t).toNat = t.toNat - 1 := by
  unfold countDown
  split
  · next hpos => exact BitVec.toNat_sub_of_le hpos
  · next hzero => omega

/-- Settles O50: each timer is counted down by itself, and the command writes no other part. -/
theorem tickCountsEachTimerDownToZero : Obligations.TickCountsEachTimerDownToZero := fun font s =>
  ⟨_, rfl, countDown_toNat s.dt, countDown_toNat s.st, (runCommand_changesOnly font .tickTimers s).sameBut⟩

/-! ### An oversize load -/

theorem loadCommand_of_oversize {bytes : List Byte} (s : State) (h : Config.loadMax < bytes.length) :
    loadCommand bytes s = (s, .fault (.loadFault bytes.length)) :=
  if_pos h

/-- Settles O53: the length is checked before the first byte is copied. -/
theorem oversizeLoadIsRejectedWhole : Obligations.OversizeLoadIsRejectedWhole :=
  fun _ _ s h => loadCommand_of_oversize s h

end Sys2Proof.Machine

/-! The statements of 70_reset_and_hazards.md: the word placed for the next step, and the idle idiom. -/

namespace Sys2Proof.Machine

/-! ### The word placed where the next step fetches -/

/-- The two bytes of a word stored where they fit are fetched as that word (R52). -/
theorem Memory.word_putBytes_high_low (m : Memory) {a : Nat} (w : Word) (hfit : a + 2 ≤ 4096) :
    (m.putBytes a [highByte w, lowByte w]).word a = w := by
  have hcell := Memory.get_putBytes_inside [highByte w, lowByte w] m a
  have hhi : (m.putBytes a [highByte w, lowByte w]).get a = highByte w := hcell 0 Nat.zero_lt_two hfit
  have hlo : (m.putBytes a [highByte w, lowByte w]).get (a + 1) = lowByte w := hcell 1 Nat.one_lt_two hfit
  rw [Memory.word, hhi, hlo, wordOfBytes_high_low]

theorem wrap16_toNat (w : Word) : wrap16 w.toNat = w :=
  (BitVec.ofNat_toNat 16 w).trans (BitVec.setWidth_eq w)

/-- A word is placed at an address a step can fetch from, which is the old pc whenever that is one (R101; log 4). -/
theorem State.placeWord_spec (s : State) (w : Word) : ∃ a, a.toNat < 0xFFF ∧ (s.pc.toNat < 0xFFF → a = s.pc) ∧
    s.placeWord w = (s.setMem (s.mem.putBytes a.toNat [highByte w, lowByte w])).setPc a := by
  unfold State.placeWord
  split
  · next hout => exact ⟨wrap16 Config.progBase, by decide, fun hin => by omega, rfl⟩
  · next hin =>
    exact ⟨s.pc, by omega, fun _ => rfl,
      congrArg (s.setMem (s.mem.putBytes s.pc.toNat [highByte w, lowByte w])).setPc (wrap16_toNat s.pc)⟩

theorem State.withFetchWord_toNat (s : State) (w : Word) : s.withFetchWord 16 w.toNat = s.placeWord w := by
  rw [State.withFetchWord, Nat.mod_eq_of_lt w.isLt, wrap16_toNat]

/-- Settles O21: the word is stored at an address in fetch range, pc is there, and the fetch reads it back. -/
theorem placedWordIsTheNextStep : Obligations.PlacedWordIsTheNextStep := by
  intro s w i hd
  obtain ⟨a, ha, hsame, hplace⟩ := s.placeWord_spec w
  refine ⟨_, (s.withFetchWord_toNat w).trans hplace, ?_, ?_, hsame,
    memorySameOutside_putBytes s a.toNat [highByte w, lowByte w]⟩
  · rw [← State.advance_eq_wrap16]
    refine step_of_fetchDecode_ok (State.fetchDecode_ok ha ?_)
    exact (congrArg decode (Memory.word_putBytes_high_low s.mem w (by omega))).trans hd
  · exact ((changesOnly_setMem s _).trans (changesOnly_setPc _ a)).mono (by simp) |>.sameBut

/-! ### The idle idiom -/

/-- Every address a step can fetch from is the target of some 1NNN (R122). -/
theorem zextAddr_ofNat_toNat {a : Word} (h : a.toNat < 0xFFF) : zextAddr (BitVec.ofNat 12 a.toNat) = a := by
  apply BitVec.eq_of_toNat_eq
  rw [zextAddr_toNat, BitVec.toNat_ofNat]
  omega

/-- A jump to the address it was fetched from undoes the fetch's advance. -/
theorem exec_jp_advance_of_target {s : State} {nnn : Addr12} (h : zextAddr nnn = s.pc) :
    exec (.jp nnn) s.advance = .next s :=
  congrArg (fun a => Host.Outcome.next (s.advance.setPc a)) h

/-- Settles O28: the word is that of the jump to its own address. -/
theorem selfJumpIdles : Obligations.SelfJumpIdles := by
  intro s hpc hw
  have htarget : zextAddr (BitVec.ofNat 12 s.pc.toNat) = s.pc := zextAddr_ofNat_toNat hpc
  have hword : s.mem.word s.pc.toNat = encode (.jp (BitVec.ofNat 12 s.pc.toNat)) := by
    apply BitVec.eq_of_toNat_eq
    rw [hw, encode, encodeA_toNat _ _ (by decide), ← zextAddr_toNat, htarget]
  have hf : s.fetchDecode = .ok (.jp (BitVec.ofNat 12 s.pc.toNat)) :=
    State.fetchDecode_ok hpc (by rw [hword, decode_encode])
  rw [step_of_fetchDecode_ok hf, exec_jp_advance_of_target htarget]

end Sys2Proof.Machine
